-- ==== Sys2Proof/Word.lean ====
section
/-! DEFINITION. The engine's word types (00_scope.md R16, R18): every register, table entry and CRC value is 32 bits,
a data byte is 8 bits, an operand pair is 64 bits, a half-byte is 4 bits. All are unsigned. -/

namespace Sys2Proof

/-- A 32-bit value: a register, a command word, a CRC value, a table entry (R16). -/
abbrev Word := BitVec 32

/-- A data byte, also a table index (R16). -/
abbrev Byte := BitVec 8

/-- A half-byte: an index of the half-byte table, a slice number (R16, R100). -/
abbrev Nibble := BitVec 4

/-- A 64-bit operand: ADDR, LEN, PFD and their latches (R33, R46). -/
abbrev DWord := BitVec 64

end Sys2Proof
end

