-- ==== Sys2Proof/Config.lean ====
section
/-! DEFINITION. The implementation parameters of 00_scope.md §5 as plain data, the default configuration, and the
free values (opaque constants) for what the spec leaves open. -/

namespace Sys2Proof

/-- STRATEGY (R11): the checksum strategy the engine is built with. -/
inductive Strategy where
  | bitwise
  | halfbyte
  | byte
  | tableless
  | slice4
  | slice8
  | slice16
deriving DecidableEq, Repr

/-- TABLE_INIT (R12): how the table set comes to hold its values. -/
inductive TableInit where
  | rom
  | auto
  | cmd
deriving DecidableEq, Repr

/-- A range of buffer addresses: `size` bytes from `base`. -/
structure Region where
  base : Nat
  size : Nat
deriving DecidableEq, Repr

/-- The parameters a model takes as arguments (00_scope.md R11 to R15, 92_eei_decisions.md "OPEN parameters").
They are fixed for a machine: no step changes them. The launch memory is the memory of the launch state. -/
structure Config where
  /-- STRATEGY (R11). -/
  strategy : Strategy
  /-- TABLE_INIT (R12). -/
  tableInit : TableInit
  /-- PF_IMPL (R13): whether CRCPF sends hints at all. -/
  pfImpl : Bool
  /-- AW (R14): the width in bits of a buffer address, 32 to 64. -/
  aw : Nat
  /-- REG_BASE (R15): where the platform places the register window. -/
  regBase : Nat
  /-- The complement of `mem_ok` (R223) as data: a read at an address in one of these ranges is a bus error. -/
  noAnswer : List Region
deriving DecidableEq, Repr

/-- The default configuration (R11 to R14): SLICE16, AUTO, PF_IMPL = 1, AW = 64. REG_BASE and `mem_ok` are OPEN in the
spec. DESIGN CHOICE (unsafe): the window at address 0 and every address answering (notes/assumptions/2.md). -/
def Config.default : Config where
  strategy := .slice16
  tableInit := .auto
  pfImpl := true
  aw := 64
  regBase := 0
  noAnswer := []

/-- Free value (42_prefetch.md R201, U5): whether the group at hand gets its hint (notes/assumptions/12.md). -/
opaque Config.hintSent : Nat → Bool

/-- Free value (42_prefetch.md R201, U5): whether a hint beyond the buffer's end is clamped or skipped
(notes/assumptions/12.md). -/
opaque Config.hintClamped : Nat → Bool

/-- Free value (60_exceptions.md R224): for a byte written during the command that reads it, which of the values it held
since acceptance the read returns (counter, address; notes/assumptions/13.md). -/
opaque Config.racePick : Nat → Nat → Nat

end Sys2Proof
end

