-- ==== Sys2Proof/Machine/Params.lean ====
section
/-! DEFINITION. What follows from the configuration: NSLICES, NEEDS_TABLES, the CFG register, `mem_ok`, the place of the
register window (00_scope.md R11 to R17, 10_state.md R37 and R45, 60_exceptions.md R223). -/

namespace Sys2Proof

/-- NSLICES (R17): the number of slice tables built. -/
def Strategy.nslices : Strategy → Nat
  | .bitwise => 0
  | .halfbyte => 0
  | .byte => 1
  | .tableless => 0
  | .slice4 => 4
  | .slice8 => 8
  | .slice16 => 16

/-- The half-byte table is present if and only if STRATEGY = HALFBYTE (R17). -/
def Strategy.hasHalf (st : Strategy) : Bool :=
  st == .halfbyte

/-- NEEDS_TABLES (R37). -/
def Strategy.needsTables : Strategy → Bool
  | .bitwise => false
  | .halfbyte => true
  | .byte => true
  | .tableless => false
  | .slice4 => true
  | .slice8 => true
  | .slice16 => true

/-- The CFG.STRAT code (R11). -/
def Strategy.code : Strategy → Nat
  | .bitwise => 0
  | .halfbyte => 1
  | .byte => 2
  | .tableless => 3
  | .slice4 => 4
  | .slice8 => 5
  | .slice16 => 6

/-- The bytes one engine step of the strategy consumes while that many remain (R173, R174). -/
def Strategy.groupSize : Strategy → Nat
  | .bitwise => 1
  | .halfbyte => 1
  | .byte => 1
  | .tableless => 1
  | .slice4 => 4
  | .slice8 => 8
  | .slice16 => 16

/-- The CFG.TINIT code (R45). -/
def TableInit.code : TableInit → Nat
  | .rom => 0
  | .auto => 1
  | .cmd => 2

/-- A configuration the spec admits: 32 ≤ AW ≤ 64 (R14). -/
def Config.wf (cfg : Config) : Bool :=
  decide (32 ≤ cfg.aw) && decide (cfg.aw ≤ 64)

/-- A BUILD has work (R36, R138): tables are needed and are not ROM constants. -/
def Config.builds (cfg : Config) : Bool :=
  cfg.strategy.needsTables && cfg.tableInit != .rom

/-- TVALID after reset (R55). -/
def Config.resetTvalid (cfg : Config) : Bool :=
  !cfg.strategy.needsTables || cfg.tableInit == .rom

/-- The AUTO build starts at reset (R55, R251). -/
def Config.resetBuilds (cfg : Config) : Bool :=
  cfg.strategy.needsTables && cfg.tableInit == .auto

/-- CFG (R45): STRAT 2:0, TINIT 5:4, PFIMPL 8, NSLICES 20:16, HTAB 21, AW 30:24; the other bits are 0. -/
def Config.word (cfg : Config) : Word :=
  BitVec.ofNat 32 (cfg.strategy.code + cfg.tableInit.code * 2 ^ 4 + cfg.pfImpl.toNat * 2 ^ 8
    + cfg.strategy.nslices * 2 ^ 16 + cfg.strategy.hasHalf.toNat * 2 ^ 21 + cfg.aw * 2 ^ 24)

/-- The address lies in the region. -/
def Region.covers (r : Region) (addr : Nat) : Bool :=
  decide (r.base ≤ addr) && decide (addr < r.base + r.size)

/-- `mem_ok(addr)` (R223): whether the platform answers a buffer read at the address. -/
def Config.memOk (cfg : Config) (addr : Nat) : Bool :=
  !cfg.noAnswer.any (fun r => r.covers addr)

/-- The range check's bound (R222): the size of the buffer address space, 2^AW bytes. -/
def Config.space (cfg : Config) : Nat :=
  2 ^ cfg.aw

/-- The offset in the 256-byte register window of a system address, if the address lies in it (R15, R30). -/
def Config.windowOffset (cfg : Config) (addr : Nat) : Option Nat :=
  if cfg.regBase ≤ addr ∧ addr < cfg.regBase + 256 then some (addr - cfg.regBase) else none

/-- A slice table read of table `k` is legal (R109): k < NSLICES and TVALID = 1. -/
def Config.sliceReadable (cfg : Config) (tvalid : Bool) (k : Nibble) : Bool :=
  decide (k.toNat < cfg.strategy.nslices) && tvalid

/-- A half-byte table read is legal (R109): STRATEGY = HALFBYTE and TVALID = 1. -/
def Config.halfReadable (cfg : Config) (tvalid : Bool) : Bool :=
  cfg.strategy.hasHalf && tvalid

end Sys2Proof
end

