-- ==== Sys2Proof/Syntax.lean ====
section
/-! DEFINITION. The six commands of spec/opcode_table.json (30_encoding.md R103). Operands other than the index fields are
implicit: the operand registers latched at acceptance (R101, R102). -/

namespace Sys2Proof

/-- One constructor per row of the opcode table. -/
inductive Instr where
  /-- NOP (R104, R142). -/
  | nop
  /-- BUILD (R105, R138). -/
  | build
  /-- CRC (R106, R160). -/
  | crc
  /-- CRCPF (R107, R200). -/
  | crcpf
  /-- RDTBL k, b (R108, R140): slice table number k, entry index b. -/
  | rdtbl (k : Nibble) (b : Byte)
  /-- RDHTBL q (R108, R141): half-byte entry index q. -/
  | rdhtbl (q : Nibble)
deriving DecidableEq, Repr

end Sys2Proof
end

