-- ==== Sys2Proof/WellFormed.lean ====
section
/-! DEFINITION. Which commands a configuration and TVALID admit (30_encoding.md R109, R110). Every value of the index
fields can be encoded, so the only checks are the two table reads'. -/

namespace Sys2Proof

/-- The command is legal: its word is not an ILLEGAL word (R109, R110). -/
def Instr.wellFormed (cfg : Config) (tvalid : Bool) : Instr → Bool
  | .nop => true
  | .build => true
  | .crc => true
  | .crcpf => true
  | .rdtbl k _ => cfg.sliceReadable tvalid k
  | .rdhtbl _ => cfg.halfReadable tvalid

end Sys2Proof
end

