-- ==== Sys2Proof/Decode.lean ====
section
/-! DEFINITION. Decoding of command words (30_encoding.md R100 to R112), total on all 2^32 words, and the encoder.
`decodeWord` reads the word alone; `decode` is rule R109 as the spec writes it, which also reads the configuration and
TVALID to tell a legal table read from an illegal one. -/

namespace Sys2Proof

/-- Why a word is ILLEGAL whatever the configuration (R110). -/
inductive Illegal where
  /-- OP 0x5 to 0xF. -/
  | reservedOp
  /-- A nonzero bit in w[31:4] with OP 0x0 to 0x3. -/
  | bitsAboveOp
  /-- A nonzero bit in RSV0 or RSV1 with OP 0x4. -/
  | reservedBits
  /-- RDHTBL with TSEL ≠ 0. -/
  | halfReadTsel
  /-- RDHTBL with w[19:16] ≠ 0. -/
  | halfReadTidxHigh
deriving DecidableEq, Repr

/-- OP, w[3:0] (R100). -/
def opField (w : Word) : Nibble := w.extractLsb' 0 4
/-- RSV0, w[7:4] (R100). -/
def rsv0Field (w : Word) : Nibble := w.extractLsb' 4 4
/-- TSEL, w[11:8] (R100). -/
def tselField (w : Word) : Nibble := w.extractLsb' 8 4
/-- TIDX, w[19:12] (R100). -/
def tidxField (w : Word) : Byte := w.extractLsb' 12 8
/-- NIDX, w[15:12] (R100). -/
def nidxField (w : Word) : Nibble := w.extractLsb' 12 4
/-- TIDX[7:4], w[19:16] (R100). -/
def tidxHighField (w : Word) : Nibble := w.extractLsb' 16 4
/-- HSEL, w[20] (R100). -/
def hselField (w : Word) : Bool := w.getLsbD 20
/-- RSV1, w[31:21] (R100). -/
def rsv1Field (w : Word) : BitVec 11 := w.extractLsb' 21 11

/-- The command a word encodes by its bits alone, or why no configuration makes it legal (R100, R103 to R110). -/
def decodeWord (w : Word) : Except Illegal Instr :=
  if opField w = 0x0#4 then
    if w = 0x00000000#32 then .ok .nop else .error .bitsAboveOp
  else if opField w = 0x1#4 then
    if w = 0x00000001#32 then .ok .build else .error .bitsAboveOp
  else if opField w = 0x2#4 then
    if w = 0x00000002#32 then .ok .crc else .error .bitsAboveOp
  else if opField w = 0x3#4 then
    if w = 0x00000003#32 then .ok .crcpf else .error .bitsAboveOp
  else if opField w = 0x4#4 then
    if rsv0Field w ≠ 0#4 ∨ rsv1Field w ≠ 0#11 then .error .reservedBits
    else if hselField w = false then .ok (.rdtbl (tselField w) (tidxField w))
    else if tselField w ≠ 0#4 then .error .halfReadTsel
    else if tidxHighField w ≠ 0#4 then .error .halfReadTidxHigh
    else .ok (.rdhtbl (nidxField w))
  else .error .reservedOp

/-- Rule R109, line for line: `none` is ILLEGAL. -/
def decode (cfg : Config) (tvalid : Bool) (w : Word) : Option Instr :=
  if opField w = 0x0#4 ∧ w = 0x00000000#32 then some .nop
  else if opField w = 0x1#4 ∧ w = 0x00000001#32 then some .build
  else if opField w = 0x2#4 ∧ w = 0x00000002#32 then some .crc
  else if opField w = 0x3#4 ∧ w = 0x00000003#32 then some .crcpf
  else if opField w = 0x4#4 ∧ rsv0Field w = 0#4 ∧ rsv1Field w = 0#11 then
    if hselField w = false then
      if (tselField w).toNat < cfg.strategy.nslices ∧ tvalid = true then
        some (.rdtbl (tselField w) (tidxField w))
      else none
    else if tselField w = 0#4 ∧ tidxHighField w = 0#4 ∧ cfg.strategy = .halfbyte ∧ tvalid = true then
      some (.rdhtbl (nidxField w))
    else none
  else none

/-- The command word of an instruction (R104 to R108). -/
def encode : Instr → Word
  | .nop => 0x00000000#32
  | .build => 0x00000001#32
  | .crc => 0x00000002#32
  | .crcpf => 0x00000003#32
  | .rdtbl k b => 0x00000004#32 ||| (k.setWidth 32 <<< 8) ||| (b.setWidth 32 <<< 12)
  | .rdhtbl q => 0x00100004#32 ||| (q.setWidth 32 <<< 12)

/-- The legal words of a configuration with the given TVALID, listed (R113). -/
def legalWords (cfg : Config) (tvalid : Bool) : List Word :=
  [encode .nop, encode .build, encode .crc, encode .crcpf]
    ++ (if tvalid then
          (List.range cfg.strategy.nslices).flatMap (fun k =>
            (List.range 256).map (fun b => encode (.rdtbl (BitVec.ofNat 4 k) (BitVec.ofNat 8 b))))
        else [])
    ++ (if cfg.halfReadable tvalid then
          (List.range 16).map (fun q => encode (.rdhtbl (BitVec.ofNat 4 q)))
        else [])

/-- The instruction the decoder reads from an instruction of `nbits` bits. A command word is one 32-bit word (R112), so
the table's numbering of bits is the word's own; bits past the word make it no command word. -/
def decodeTableWord (nbits w : Nat) : Option Instr :=
  if w % 2 ^ nbits < 2 ^ 32 then (decodeWord (BitVec.ofNat 32 (w % 2 ^ nbits))).toOption else none

end Sys2Proof
end

