-- ==== Sys2Proof/Machine/Fold.lean ====
section
/-! DEFINITION. The polynomial fold: the bit step, the table entries' values, the datapath steps and the reference
function (00_scope.md R2 and R19, 40_table_builder.md R131 to R134, 41_checksum.md R163 to R172). A datapath step that
reads a table takes the table's lookup as its argument. -/

namespace Sys2Proof

/-- The generator constant (R2). -/
def POLY : Word := 0xEDB88320#32

/-- The bit step (R131). -/
def bitstep (c : Word) : Word :=
  if c.getLsbD 0 then (c >>> 1) ^^^ POLY else c >>> 1

/-- `bitstep^k(c)` (R20). -/
def bitsteps : Nat → Word → Word
  | 0, c => c
  | k + 1, c => bitsteps k (bitstep c)

/-- `w[7:0]` (R18). -/
def lowByte (w : Word) : Byte := w.extractLsb' 0 8

/-- `byte(w, i)` = w[8i+7:8i] (R19). -/
def byteOf (w : Word) (i : Nat) : Byte := w.extractLsb' (8 * i) 8

/-- `LE32(d0, d1, d2, d3)` (R19): d0 in bits 7:0. -/
def le32 (d0 d1 d2 d3 : Byte) : Word :=
  d0.setWidth 32 ||| (d1.setWidth 32 <<< 8) ||| (d2.setWidth 32 <<< 16) ||| (d3.setWidth 32 <<< 24)

/-- The value of the base table's entry b (R132). -/
def baseEntry (b : Byte) : Word := bitsteps 8 (b.setWidth 32)

/-- The value of T[k][b] (R132 for k = 0, R133 for k ≥ 1). -/
def sliceEntry : Nat → Byte → Word
  | 0, b => baseEntry b
  | k + 1, b => (sliceEntry k b >>> 8) ^^^ baseEntry (lowByte (sliceEntry k b))

/-- The value of H[q] (R134). -/
def halfEntry (q : Nibble) : Word := bitsteps 4 (q.setWidth 32)

/-- The slice tables with the values of R132 and R133. -/
def builtTables (cfg : Config) : List (List Word) :=
  (List.range cfg.strategy.nslices).map fun k => (List.range 256).map fun b => sliceEntry k (BitVec.ofNat 8 b)

/-- The half-byte table with the values of R134, when the strategy has one. -/
def builtHalf (cfg : Config) : List Word :=
  if cfg.strategy.hasHalf then (List.range 16).map fun q => halfEntry (BitVec.ofNat 4 q) else []

/-- The BITWISE step (R164). -/
def bytestepBit (c : Word) (d : Byte) : Word :=
  bitsteps 8 (c ^^^ d.setWidth 32)

/-- The BYTE step (R165), over the lookup of T[0]. -/
def bytestepTab (t0 : Byte → Word) (c : Word) (d : Byte) : Word :=
  (c >>> 8) ^^^ t0 (lowByte c ^^^ d)

/-- The TABLELESS step (R166): the value of the BYTE step, computed with no table. -/
def bytestepTl (c : Word) (d : Byte) : Word :=
  bytestepTab baseEntry c d

/-- The combinational realisation of the TABLELESS step that R166 gives (only its value is normative). -/
def bytestepTlCircuit (c : Word) (d : Byte) : Word :=
  let s : Byte := lowByte c ^^^ d
  let low : Word := (s ^^^ (s <<< 6)).setWidth 32
  let x : Word := low * 0x00804004#32
  (c >>> 8) ^^^ (low * 0x01010100#32) ^^^ x ^^^ (x >>> 1) ^^^ (low * 0x00101000#32) ^^^ (low <<< 19)
    ^^^ (low <<< 17) ^^^ (low >>> 2)

/-- The half-byte step (R167), over the lookup of H. -/
def nibstep (h : Nibble → Word) (c : Word) (q : Nibble) : Word :=
  h ((c ^^^ q.setWidth 32).extractLsb' 0 4) ^^^ (c >>> 4)

/-- The HALFBYTE step (R167): the low half-byte first. -/
def bytestepHalf (h : Nibble → Word) (c : Word) (d : Byte) : Word :=
  nibstep h (nibstep h c (d.extractLsb' 0 4)) (d.extractLsb' 4 4)

/-- The slicing step for groups of N bytes (R169), over the lookup of the slice tables: the first four bytes are combined
with c, little-endian, and position i looks up T[N − 1 − i]. -/
def slicestep (t : Nat → Byte → Word) (N : Nat) (c : Word) (ds : List Byte) : Word :=
  let w := c ^^^ le32 (ds.getD 0 0) (ds.getD 1 0) (ds.getD 2 0) (ds.getD 3 0)
  (List.range N).foldl
    (fun r i => r ^^^ t (N - 1 - i) (if i < 4 then byteOf w i else ds.getD i 0)) 0

/-- The reference function CRC32(p, B) (R163). -/
def crc32 (p : Word) (bytes : List Byte) : Word :=
  ~~~ (bytes.foldl bytestepBit (~~~ p))

end Sys2Proof
end

