-- ==== Sys2Proof/Machine/State.lean ====
section
/-! DEFINITION. The machine's state as plain data, the reasons a step can stop, and the state after reset
(10_state.md, 60_exceptions.md R221, 70_reset_and_hazards.md R250 to R253). -/

namespace Sys2Proof.Machine

/-- `phase` (R50): what the sequencer does. IDLE if and only if BUSY = 0. -/
inductive Phase where
  | idle
  | building
  | running
deriving DecidableEq, Repr

/-- A model fault (R221): recorded in the state, reported by no register, never cleared. -/
inductive ModelFault where
  /-- R224: a byte at `addr` in [a, a + n) was written between acceptance and completion of a CRC or CRCPF. -/
  | bufferChangedDuringCommand (addr : Nat)
deriving DecidableEq, Repr

/-- A host access to the register window (R31), with its offset and its width in bytes. -/
inductive Access where
  /-- `RegRead(off)`. -/
  | read (off width : Nat)
  /-- `RegWrite(off, v)`. -/
  | write (off width : Nat) (v : Word)
deriving DecidableEq, Repr

/-- Who writes a byte of the buffer memory (R224: "the host, or any other agent"). -/
inductive Writer where
  | host
  | otherAgent
deriving DecidableEq, Repr

/-- One event of the schedule: what the next step of the machine is (notes/assumptions/9.md). -/
inductive Event where
  /-- The host performs a register access (R31, R114). -/
  | access (x : Access)
  /-- The host reads at a system address, `width` bytes: a register access when it lies in the window (R15, R30). -/
  | busRead (addr width : Nat)
  /-- The host writes at a system address, `width` bytes. -/
  | busWrite (addr width : Nat) (v : Word)
  /-- `poll` (R115): read STATUS until BUSY = 0. -/
  | poll
  /-- `chain` (R115): read RESULT and write that value to PREV. -/
  | chain
  /-- The host or another agent writes a byte of the buffer memory (R224, R258). -/
  | store (who : Writer) (addr : Nat) (b : Byte)
  /-- The engine takes a step (R10). -/
  | engine
  /-- Reset (R250, R252). -/
  | reset
deriving DecidableEq, Repr

/-- The buffer memory (R70): (address, byte) pairs in one canonical form, see `Memory.wf`. -/
abbrev Memory := List Host.Cell

/-- The machine's state. -/
structure State where
  /-- The configuration (00_scope.md §5); CFG reads it (R45). No step changes it. -/
  cfg : Config
  /-- STATUS.TVALID (R37). -/
  tvalid : Bool
  /-- STATUS.ILL (R38). -/
  ill : Bool
  /-- STATUS.BERR (R39). -/
  berr : Bool
  /-- PREV (R40). -/
  prev : Word
  /-- RESULT (R41). -/
  result : Word
  /-- ADDR_LO (R42). -/
  addrLo : Word
  /-- ADDR_HI (R42). -/
  addrHi : Word
  /-- LEN_LO (R43). -/
  lenLo : Word
  /-- LEN_HI (R43). -/
  lenHi : Word
  /-- PFD_LO (R44). -/
  pfdLo : Word
  /-- PFD_HI (R44). -/
  pfdHi : Word
  /-- The slice tables T[k][b] (R52). -/
  tables : List (List Word)
  /-- The half-byte table H[q] (R52, R134). -/
  half : List Word
  /-- The sequencer's phase (R50). -/
  phase : Phase
  /-- The working CRC c (R50, R56). -/
  c : Word
  /-- The cursor cur: the address of the next buffer byte to read (R50); a natural, since it may reach 2^64 (R19). -/
  cur : Nat
  /-- rem: the bytes left (R50). -/
  rem : Nat
  /-- The latch a of ADDR (R46). -/
  a : DWord
  /-- The latch n of LEN (R46). -/
  n : DWord
  /-- The latch p of PREV (R46). -/
  p : Word
  /-- The latch d of PFD (R46). -/
  d : DWord
  /-- S: the datapath fixed at acceptance (R162). -/
  dp : Strategy
  /-- The running command is a CRCPF (R200, R206). -/
  pfOn : Bool
  /-- The builder's slice index (R55, R136). -/
  bk : Nat
  /-- The builder's entry index (R55, R136). -/
  bi : Nat
  /-- The CMD write that waits for BUSY = 0 (R48). -/
  waiting : Option Word
  /-- The buffer memory (R70, R71). -/
  mem : Memory
  /-- The model fault record (R221). -/
  modelFaults : List ModelFault
  /-- The schedule: what the host and the other agents do, in order (R22, R261). -/
  queue : List Event
  /-- The model's own: the values the host's reads returned, newest first (R114). -/
  readLog : List Word
  /-- The model's own: the addresses read since the last acceptance of a CRC or CRCPF, or reset, oldest first (R73;
  notes/assumptions/17.md, 35.md). -/
  reads : List Nat
  /-- The hints sent since the last acceptance of a CRC or CRCPF, or reset, newest first (R56, R202;
  notes/assumptions/12.md, 35.md). -/
  hints : List Nat
  /-- The model's own: the bytes of [a, a + n) overwritten since the last acceptance of a CRC or CRCPF, or reset, while
  the command runs, newest first (R224; notes/assumptions/13.md, 35.md). -/
  raced : List Host.Cell
  /-- The model's own: the counter at which the free values are read. -/
  free : Nat
deriving DecidableEq, Repr

/-- Why a step stops with a fault. -/
inductive Fault where
  /-- Raised by a `store` event at an address outside the buffer memory's 2^AW bytes (R70): no such byte exists. Safe:
  the model stops where the platform would do something of its own. -/
  | noSuchBufferAddress (addr : Nat)
deriving DecidableEq, Repr

/-- Why a step is refused. -/
inductive Refusal where
  /-- Raised by an arm of `exec` that has no meaning yet; no arm is left. Safe. -/
  | notModelled (mnemonic : String)
  /-- Raised by a register access that R31 does not admit: not 32 bits wide, misaligned, or outside 0x00..0xFC. Safe:
  "a model refuses it". -/
  | accessNotAdmitted (off width : Nat)
  /-- Raised by a bus access outside the register window (R15, R30): it addresses another unit of the platform. Safe. -/
  | outsideRegisterWindow (addr : Nat)
deriving DecidableEq, Repr

/-- Tables whose entries hold no value yet (R52, R55): the right shape, zeros. DESIGN CHOICE (notes/assumptions/6.md). -/
def blankTables (cfg : Config) : List (List Word) :=
  List.replicate cfg.strategy.nslices (List.replicate 256 0#32)

/-- A half-byte table whose entries hold no value yet (R52, R55). DESIGN CHOICE (notes/assumptions/6.md). -/
def blankHalf (cfg : Config) : List Word :=
  if cfg.strategy.hasHalf then List.replicate 16 0#32 else []

/-- The state right after reset under a configuration and with a launch memory (R55, R71, R251). What R55 calls
unspecified is zero here. DESIGN CHOICE (notes/assumptions/5.md, 6.md); so are the empty records of reads, hints and
overwritten bytes, which R55 does not list (notes/assumptions/35.md). -/
def State.launch (cfg : Config) (mem : Memory) : State where
  cfg := cfg
  tvalid := cfg.resetTvalid
  ill := false
  berr := false
  prev := 0
  result := 0
  addrLo := 0
  addrHi := 0
  lenLo := 0
  lenHi := 0
  pfdLo := 0
  pfdHi := 0
  tables := if cfg.tableInit = .rom then builtTables cfg else blankTables cfg
  half := if cfg.tableInit = .rom then builtHalf cfg else blankHalf cfg
  phase := if cfg.resetBuilds then .building else .idle
  c := 0
  cur := 0
  rem := 0
  a := 0
  n := 0
  p := 0
  d := 0
  dp := .bitwise
  pfOn := false
  bk := 0
  bi := 0
  waiting := none
  mem := mem
  modelFaults := []
  queue := []
  readLog := []
  reads := []
  hints := []
  raced := []
  free := 0

/-- The state right after reset in the default configuration, with nothing listed in memory (R55). The launch memory is a
parameter of the spec (R71, D42). DESIGN CHOICE: empty (notes/assumptions/4.md). -/
def State.reset : State :=
  State.launch Config.default []

end Sys2Proof.Machine
end

