-- ==== Sys2Proof/Machine/Flags.lean ====
section
/-! DEFINITION. The STATUS bits (10_state.md R35 to R39, R51). -/

namespace Sys2Proof.Machine

/-- STATUS.BUSY: `phase = IDLE` if and only if BUSY = 0 (R50). -/
def State.busy (s : State) : Bool :=
  match s.phase with
  | .idle => false
  | .building => true
  | .running => true

/-- STATUS (R35): BUSY 0, TVALID 1, ILL 2, BERR 3; bits 31:4 read 0. -/
def State.status (s : State) : Word :=
  BitVec.ofNat 32 (s.busy.toNat + s.tvalid.toNat * 2 + s.ill.toNat * 4 + s.berr.toNat * 8)

/-- What every accepted command word does first (R38, R39, R48): ILL <- 0; BERR <- 0. -/
def State.clearErrors (s : State) : State :=
  { s with ill := false, berr := false }

end Sys2Proof.Machine
end

