-- ==== Sys2Proof/Machine/Operands.lean ====
section
/-! DEFINITION. The operand registers as the commands read them: the 64-bit pairs, the hardwired bits of ADDR, the
register offsets (10_state.md R30, R33, R40 to R44). -/

namespace Sys2Proof.Machine

/-- ADDR = ADDR_HI << 32 | ADDR_LO (R33). -/
def State.addr (s : State) : DWord := s.addrHi ++ s.addrLo

/-- LEN = LEN_HI << 32 | LEN_LO (R33). -/
def State.len (s : State) : DWord := s.lenHi ++ s.lenLo

/-- PFD = PFD_HI << 32 | PFD_LO (R33). -/
def State.pfd (s : State) : DWord := s.pfdHi ++ s.pfdLo

/-- The writable bits of ADDR: positions 0 to AW − 1 (R42). -/
def addrMask (cfg : Config) : DWord := BitVec.ofNat 64 (2 ^ cfg.aw - 1)

/-- The writable bits of ADDR_LO (R42). -/
def addrMaskLo (cfg : Config) : Word := (addrMask cfg).extractLsb' 0 32

/-- The writable bits of ADDR_HI (R42). -/
def addrMaskHi (cfg : Config) : Word := (addrMask cfg).extractLsb' 32 32

/-- The offsets of the registers (R30). -/
def offCMD : Nat := 0x00
def offSTATUS : Nat := 0x04
def offPREV : Nat := 0x08
def offRESULT : Nat := 0x0C
def offADDR_LO : Nat := 0x10
def offADDR_HI : Nat := 0x14
def offLEN_LO : Nat := 0x18
def offLEN_HI : Nat := 0x1C
def offPFD_LO : Nat := 0x20
def offPFD_HI : Nat := 0x24
def offCFG : Nat := 0x28

end Sys2Proof.Machine
end

