-- ==== Sys2Proof/Machine/Ops.lean ====
section
/-! DEFINITION. The named operations: the buffer memory, the table set, the register window, error entry
(20_memory.md R70 to R73, 10_state.md R31, R32, R40 to R45 and R52, 30_encoding.md R110, 60_exceptions.md R222 to R226). -/

namespace Sys2Proof.Machine

/-! ## The buffer memory -/

/-- What an unlisted address reads as. The launch contents are a parameter (R71, D42). DESIGN CHOICE (unsafe): 0x00
(notes/assumptions/3.md). -/
def unlistedByte : Byte := 0

/-- The byte the memory holds at an address. -/
def Memory.read : Memory → Nat → Byte
  | [], _ => unlistedByte
  | (x, v) :: rest, addr => if x = addr then v else Memory.read rest addr

/-- The entries that stand for one byte: none where the byte is what an unlisted address reads as. -/
def Memory.cell (addr : Nat) (b : Byte) : Memory :=
  if b = unlistedByte then [] else [(addr, b)]

/-- The memory with one byte written, in canonical form again. -/
def Memory.write : Memory → Nat → Byte → Memory
  | [], addr, b => Memory.cell addr b
  | (x, v) :: rest, addr, b =>
    if x < addr then (x, v) :: Memory.write rest addr b
    else if x = addr then Memory.cell addr b ++ rest
    else Memory.cell addr b ++ (x, v) :: rest

/-- The canonical form: addresses strictly rising, no entry equal to what an unlisted address reads as. -/
def Memory.wf : Memory → Bool
  | [] => true
  | (x, v) :: rest => rest.all (fun e => decide (x < e.1)) && v != unlistedByte && Memory.wf rest

/-- The bytes B[0..k−1] from an address upward (R71). -/
def Memory.bytes (m : Memory) (addr : Nat) : Nat → List Byte
  | 0 => []
  | k + 1 => m.read addr :: Memory.bytes m (addr + 1) k

/-- The bytes the raced record holds for an address. -/
def overwritten (raced : List Host.Cell) (addr : Nat) : List Byte :=
  (raced.filter (fun e => e.1 == addr)).map (fun e => e.2)

/-- The byte on the memory port at an address: the memory's byte, but for a byte written during the running command, of
which a read returns any value it held since acceptance (R224); a free value (notes/assumptions/13.md). -/
def State.portByte (s : State) (addr : Nat) : Byte :=
  match overwritten s.raced addr with
  | [] => s.mem.read addr
  | old :: more =>
    let values := s.mem.read addr :: old :: more
    values.getD (Config.racePick s.free addr % values.length) 0

/-- `MemRead(addr, 1)` (R72): the byte, or a bus error (`none`, R223). -/
def State.memRead (s : State) (addr : Nat) : Option Byte :=
  if s.cfg.memOk addr then some (s.portByte addr) else none

/-- The bytes of k reads in increasing address order, or `none` if one of them fails (R73, R168). -/
def State.readGroup (s : State) (addr : Nat) : Nat → Option (List Byte)
  | 0 => some []
  | k + 1 =>
    match s.memRead addr with
    | none => none
    | some b =>
      match State.readGroup s (addr + 1) k with
      | none => none
      | some bs => some (b :: bs)

/-- The addresses those reads put on the port: up to and including the first that fails (R223). -/
def State.readsMade (s : State) (addr : Nat) : Nat → List Nat
  | 0 => []
  | k + 1 => addr :: (if s.cfg.memOk addr then State.readsMade s (addr + 1) k else [])

/-- A store by the host or another agent lands in the buffer memory; one to [a, a + n) while a CRC or CRCPF runs records
the model fault (R224, R258; notes/assumptions/14.md). -/
def State.storeByte (s : State) (addr : Nat) (b : Byte) : State :=
  if s.phase = .running ∧ s.a.toNat ≤ addr ∧ addr < s.a.toNat + s.n.toNat then
    { s with
      mem := s.mem.write addr b
      raced := (addr, s.mem.read addr) :: s.raced
      modelFaults := s.modelFaults ++ [.bufferChangedDuringCommand addr] }
  else
    { s with mem := s.mem.write addr b }

/-! ## The table set -/

/-- T[k][b] (R52). -/
def State.tableEntry (s : State) (k : Nat) (b : Byte) : Word :=
  (s.tables.getD k []).getD b.toNat 0

/-- H[q] (R52, R134). -/
def State.halfTableEntry (s : State) (q : Nibble) : Word :=
  s.half.getD q.toNat 0

/-- The builder writes one slice table entry (R136). -/
def State.setTableEntry (s : State) (k b : Nat) (v : Word) : State :=
  { s with tables := s.tables.set k ((s.tables.getD k []).set b v) }

/-- The builder writes one half-byte table entry (R136). -/
def State.setHalfEntry (s : State) (q : Nat) (v : Word) : State :=
  { s with half := s.half.set q v }

/-! ## The register window -/

/-- A register access the window admits (R31): 32 bits wide, a multiple of 4 in 0x00..0xFC. -/
def admitted (off width : Nat) : Bool :=
  decide (width = 4) && decide (off % 4 = 0) && decide (off < 256)

/-- `RegRead(off)` of an admitted offset (R30, R32). CMD and the reserved offsets read 0. -/
def State.regRead (s : State) (off : Nat) : Word :=
  if off = offSTATUS then s.status
  else if off = offPREV then s.prev
  else if off = offRESULT then s.result
  else if off = offADDR_LO then s.addrLo
  else if off = offADDR_HI then s.addrHi
  else if off = offLEN_LO then s.lenLo
  else if off = offLEN_HI then s.lenHi
  else if off = offPFD_LO then s.pfdLo
  else if off = offPFD_HI then s.pfdHi
  else if off = offCFG then s.cfg.word
  else 0

/-- `RegWrite(off, v)` of an admitted offset other than CMD (R32, R40 to R44). STATUS, RESULT, CFG and the reserved
offsets ignore it; the ADDR bits at and above AW ignore it (R42). -/
def State.regWrite (s : State) (off : Nat) (v : Word) : State :=
  if off = offPREV then { s with prev := v }
  else if off = offADDR_LO then { s with addrLo := v &&& addrMaskLo s.cfg }
  else if off = offADDR_HI then { s with addrHi := v &&& addrMaskHi s.cfg }
  else if off = offLEN_LO then { s with lenLo := v }
  else if off = offLEN_HI then { s with lenHi := v }
  else if off = offPFD_LO then { s with pfdLo := v }
  else if off = offPFD_HI then { s with pfdHi := v }
  else s

/-- The value a host read returned is the statement's result (R114). -/
def State.logRead (s : State) (v : Word) : State :=
  { s with readLog := v :: s.readLog }

/-! ## Error entry (60_exceptions.md R226): nothing is saved, no mode changes, no control is transferred -/

/-- The acceptance step of an ILLEGAL word (R110): BERR <- 0, ILL <- 1, and nothing else. -/
def State.illegalWord (s : State) : State :=
  { s.clearErrors with ill := true }

/-- A failed range check at acceptance (R222): BERR <- 1, the engine stays IDLE. -/
def State.rangeError (s : State) : State :=
  { s with berr := true }

/-- A failing buffer read (R223): BERR <- 1, BUSY <- 0, phase <- IDLE. -/
def State.busError (s : State) : State :=
  { s with berr := true, phase := .idle }

/-! ## Reset -/

/-- A reset during a run (R250, R252): the engine's state is that after reset; a waiting CMD write is dropped. The
buffer memory is the host's, the model fault record is never cleared (R221), the host's own program and the values it
has read stay, and the free values go on (notes/assumptions/26.md). DESIGN CHOICE: the records of hints sent, of reads and of
overwritten bytes, for which R55 gives no value, begin anew (notes/assumptions/35.md). -/
def State.hardReset (s : State) : State :=
  { State.launch s.cfg s.mem with
    modelFaults := s.modelFaults
    queue := s.queue
    readLog := s.readLog
    free := s.free }

end Sys2Proof.Machine
end

