-- ==== Sys2Proof/Machine/Engine.lean ====
section
/-! DEFINITION. One step of the engine: an entry of the table builder, a datapath step of the running command, or its
completion (40_table_builder.md R136, 41_checksum.md R160, R168, R173 to R176, 42_prefetch.md R200 to R206). -/

namespace Sys2Proof.Machine

/-! ## The table builder -/

/-- The value the builder computes for T[k][b], from the entries it has written (R132, R133). -/
def State.builderValue (s : State) (k : Nat) (b : Byte) : Word :=
  if k = 0 then baseEntry b
  else (s.tableEntry (k - 1) b >>> 8) ^^^ s.tableEntry 0 (lowByte (s.tableEntry (k - 1) b))

/-- The end of the build phase (R136): TVALID <- 1, BUSY <- 0, phase <- IDLE. DESIGN CHOICE: the builder's indices, which
the spec leaves open outside a build, are 0 then (notes/assumptions/34.md). -/
def State.endBuild (s : State) : State :=
  { s with tvalid := true, phase := .idle, bk := 0, bi := 0 }

/-- One step of the build phase writes one entry: T[0] first, then T[k] from T[k−1] and T[0], then H when the strategy
has one; the step that writes the last entry ends the phase (R136). DESIGN CHOICE: one entry a step, and the entries of one
table in ascending order of their index (notes/assumptions/7.md). -/
def State.buildStep (s : State) : State :=
  if s.bk < s.cfg.strategy.nslices then
    let s' := s.setTableEntry s.bk s.bi (s.builderValue s.bk (BitVec.ofNat 8 s.bi))
    if s.bi < 255 then { s' with bi := s.bi + 1 }
    else if s.bk + 1 < s.cfg.strategy.nslices ∨ s.cfg.strategy.hasHalf then { s' with bk := s.bk + 1, bi := 0 }
    else s'.endBuild
  else if s.cfg.strategy.hasHalf then
    let s' := s.setHalfEntry s.bi (halfEntry (BitVec.ofNat 4 s.bi))
    if s.bi < 15 then { s' with bi := s.bi + 1 } else s'.endBuild
  else s.endBuild

/-- The state in which a build ends, its entries written at once (R136). -/
def State.finishBuild (s : State) : State :=
  { s with tables := builtTables s.cfg, half := builtHalf s.cfg }.endBuild

/-! ## Prefetch hints -/

/-- The step consumes the first byte of one of the ⌊n/16⌋ groups of 16 bytes (R200, R205). -/
def State.atGroupStart (s : State) : Bool :=
  decide ((s.cur - s.a.toNat) % 16 = 0) && decide ((s.cur - s.a.toNat) / 16 < s.n.toNat / 16)

/-- The hint the step sends, if any (R201, R204, R206): at g + d inside the buffer, else clamped to a + n − 1 or skipped.
Whether it is sent and whether it is clamped are free values (notes/assumptions/12.md). -/
def State.stepHints (s : State) : List Nat :=
  if s.pfOn && s.cfg.pfImpl && s.atGroupStart && Config.hintSent s.free then
    if s.cur + s.d.toNat < s.a.toNat + s.n.toNat then [s.cur + s.d.toNat]
    else if Config.hintClamped s.free then [s.a.toNat + s.n.toNat - 1]
    else []
  else []

/-! ## The datapath -/

/-- The bytes the next datapath step consumes: a whole group while one remains, else one byte (R173, R174). -/
def State.stepSize (s : State) : Nat :=
  if s.dp.groupSize ≤ s.rem then s.dp.groupSize else 1

/-- The one-byte step of the command's datapath (R164 to R167); a slicing datapath's remainder step is the BYTE step
(R174). -/
def State.byteStep (s : State) (c : Word) (d : Byte) : Word :=
  match s.dp with
  | .bitwise => bytestepBit c d
  | .halfbyte => bytestepHalf s.halfTableEntry c d
  | .byte => bytestepTab (s.tableEntry 0) c d
  | .tableless => bytestepTl c d
  | .slice4 => bytestepTab (s.tableEntry 0) c d
  | .slice8 => bytestepTab (s.tableEntry 0) c d
  | .slice16 => bytestepTab (s.tableEntry 0) c d

/-- The working CRC after the step's bytes: a slicing step for a whole group of a slicing datapath (R174), else the
one-byte step (R173). -/
def State.foldBytes (s : State) (ds : List Byte) : Word :=
  if 1 < s.dp.groupSize ∧ ds.length = s.dp.groupSize then slicestep s.tableEntry s.dp.groupSize s.c ds
  else ds.foldl s.byteStep s.c

/-- What a datapath step puts on the memory port: its reads and its hint. The free-value counter advances. -/
def State.portStep (s : State) : State :=
  { s with
    reads := s.reads ++ s.readsMade s.cur s.stepSize
    hints := s.stepHints ++ s.hints
    free := s.free + 1 }

/-- One datapath step (R168): read, fold, advance; a failing read ends the command (R223). -/
def State.datapathStep (s : State) : State :=
  match s.readGroup s.cur s.stepSize with
  | none => s.portStep.busError
  | some ds => { s.portStep with c := s.foldBytes ds, cur := s.cur + s.stepSize, rem := s.rem - s.stepSize }

/-- Completion of a CRC or CRCPF (R160, R176): RESULT <- ~c, BUSY <- 0, phase <- IDLE. -/
def State.complete (s : State) : State :=
  { s with result := ~~~ s.c, phase := .idle }

/-- One step of the engine. It completes a command in the first step after rem reaches 0 (R176;
notes/assumptions/8.md), and does nothing while IDLE. -/
def State.engineStep (s : State) : State :=
  match s.phase with
  | .idle => s
  | .building => s.buildStep
  | .running => if s.rem = 0 then s.complete else s.datapathStep

/-- k steps of the engine. -/
def State.engineSteps : Nat → State → State
  | 0, s => s
  | k + 1, s => State.engineSteps k s.engineStep

/-- The state once the engine's present work has ended with no event between: a build as R136 ends it, a command by its
remaining steps. -/
def State.settle (s : State) : State :=
  match s.phase with
  | .idle => s
  | .building => s.finishBuild
  | .running => State.engineSteps (s.rem + 1) s

end Sys2Proof.Machine
end

