-- ==== Sys2Proof/Machine/Checksum.lean ====
section
/-! DEFINITION. The acceptance of a checksum command, and CRC (41_checksum.md R160 to R162, 60_exceptions.md R222). -/

namespace Sys2Proof.Machine

/-- The datapath a command accepted now would use (R162): STRATEGY when TVALID = 1, else BITWISE. -/
def State.selected (s : State) : Strategy :=
  if s.tvalid then s.cfg.strategy else .bitwise

/-- a <- ADDR; n <- LEN; p <- PREV; d <- PFD (R46; notes/assumptions/15.md). The record of the command's port begins
anew. -/
def State.latch (s : State) : State :=
  { s with a := s.addr, n := s.len, p := s.prev, d := s.pfd, pfOn := false, reads := [], hints := [], raced := [] }

/-- As `latch`, for the command that may send hints (R46, R200). -/
def State.latchPf (s : State) : State :=
  { s.latch with pfOn := true }

/-- The latched buffer fits the address space (R222): a + n ≤ 2^AW, computed without wrapping. -/
def State.rangeOk (s : State) : Bool :=
  decide (s.a.toNat + s.n.toNat ≤ s.cfg.space)

/-- What follows the latching (R160): the range check, then c <- ~p, S, cur <- a, rem <- n, BUSY <- 1. -/
def State.startFold (s : State) : State :=
  if s.rangeOk then
    { s with c := ~~~ s.p, dp := s.selected, cur := s.a.toNat, rem := s.n.toNat, phase := .running }
  else s.rangeError

/-- CRC (R160), its acceptance step; the engine's steps then run it (`State.engineStep`). -/
def execCrc (s : State) : Host.Outcome State Fault Refusal :=
  .next s.clearErrors.latch.startFold

end Sys2Proof.Machine
end

