-- ==== Sys2Proof/Machine/Control.lean ====
section
/-! DEFINITION. The acceptance steps of the commands that checksum no buffer: NOP, BUILD, RDTBL, RDHTBL
(40_table_builder.md R138 to R142). Step.lean calls them with BUSY = 0 only (10_state.md R48). -/

namespace Sys2Proof.Machine

/-- NOP (R142): ILL <- 0; BERR <- 0. -/
def execNop (s : State) : Host.Outcome State Fault Refusal :=
  .next s.clearErrors

/-- BUILD (R138): starts the table builder when there is something to build (R36). -/
def execBuild (s : State) : Host.Outcome State Fault Refusal :=
  if s.cfg.builds then
    .next { s.clearErrors with tvalid := false, phase := .building, bk := 0, bi := 0 }
  else .next s.clearErrors

/-- RDTBL k, b (R140): RESULT <- T[k][b]; with k ≥ NSLICES or TVALID = 0 the word is ILLEGAL (R110). -/
def execRdtbl (k : Nibble) (b : Byte) (s : State) : Host.Outcome State Fault Refusal :=
  if s.cfg.sliceReadable s.tvalid k then
    .next { s.clearErrors with result := s.tableEntry k.toNat b }
  else .next s.illegalWord

/-- RDHTBL q (R141): RESULT <- H[q]; under another STRATEGY or with TVALID = 0 the word is ILLEGAL (R110). -/
def execRdhtbl (q : Nibble) (s : State) : Host.Outcome State Fault Refusal :=
  if s.cfg.halfReadable s.tvalid then
    .next { s.clearErrors with result := s.halfTableEntry q }
  else .next s.illegalWord

end Sys2Proof.Machine
end

