-- ==== Sys2Proof/Machine/Prefetch.lean ====
section
/-! DEFINITION. CRCPF, the prefetching checksum command (42_prefetch.md R200 to R206). -/

namespace Sys2Proof.Machine

/-- CRCPF (R200), its acceptance step: as CRC; the engine's steps then run it and may send hints. -/
def execCrcpf (s : State) : Host.Outcome State Fault Refusal :=
  .next s.clearErrors.latchPf.startFold

end Sys2Proof.Machine
end

