-- ==== Sys2Proof/Machine/Dispatch.lean ====
section
/-! DEFINITION. exec: the acceptance step of each command. -/

namespace Sys2Proof.Machine

def exec (i : Instr) (s : State) : Host.Outcome State Fault Refusal :=
  match i with
  | .nop => Sys2Proof.Machine.execNop s
  | .build => Sys2Proof.Machine.execBuild s
  | .crc => Sys2Proof.Machine.execCrc s
  | .crcpf => Sys2Proof.Machine.execCrcpf s
  | .rdtbl k b => Sys2Proof.Machine.execRdtbl k b s
  | .rdhtbl q => Sys2Proof.Machine.execRdhtbl q s

end Sys2Proof.Machine
end

