-- ==== Sys2Proof/Machine/Sequencer.lean ====
section
/-! DEFINITION. How commands reach the engine and how host and engine interleave: acceptance, waiting, the events of the
schedule (10_state.md R46 and R48, 20_memory.md R81, 30_encoding.md R110 and R115, 70_reset_and_hazards.md R252, R255 to
R258). -/

namespace Sys2Proof.Machine

/-- The acceptance step of a command word (R48): decode, then the command's acceptance actions, or the ILLEGAL word's. -/
def accept (w : Word) (s : State) : Host.Outcome State Fault Refusal :=
  match decodeWord w with
  | .ok i => exec i s
  | .error _ => .next s.illegalWord

/-- A CMD write (R48): accepted in this step while BUSY = 0, else it waits. -/
def issue (w : Word) (s : State) : Host.Outcome State Fault Refusal :=
  if s.busy then .next { s with waiting := some w } else accept w s

/-- `RegRead(off)` by the host (R31, R32). -/
def hostRead (off width : Nat) (s : State) : Host.Outcome State Fault Refusal :=
  if admitted off width then .next (s.logRead (s.regRead off)) else .refused (.accessNotAdmitted off width)

/-- `RegWrite(off, v)` by the host (R31, R32, R34); only CMD has a side effect (R77). -/
def hostWrite (off width : Nat) (v : Word) (s : State) : Host.Outcome State Fault Refusal :=
  if admitted off width then
    if off = offCMD then issue v s else .next (s.regWrite off v)
  else .refused (.accessNotAdmitted off width)

/-- A host access (R31). -/
def hostAccess (x : Access) (s : State) : Host.Outcome State Fault Refusal :=
  match x with
  | .read off width => hostRead off width s
  | .write off width v => hostWrite off width v s

/-- What the host does, and cannot do while a CMD write of its waits (R48, R256): register accesses, and stores of its own
to the buffer memory. Stores by other agents, engine steps and resets are not the host's (notes/assumptions/10.md). -/
def Event.isHostAccess : Event → Bool
  | .access _ => true
  | .busRead _ _ => true
  | .busWrite _ _ _ => true
  | .poll => true
  | .chain => true
  | .store .host _ _ => true
  | .store .otherAgent _ _ => false
  | .engine => false
  | .reset => false

/-- `poll` (R115): one read of STATUS; while BUSY = 1 the engine steps and the read is repeated (R260's weak fairness,
notes/assumptions/19.md). -/
def hostPoll (s : State) : Host.Outcome State Fault Refusal :=
  if s.busy then .next { s.logRead s.status with queue := .engine :: .poll :: s.queue }
  else .next (s.logRead s.status)

/-- `chain` (R115): the read of RESULT; the write of that value to PREV is the next event. -/
def hostChain (s : State) : Host.Outcome State Fault Refusal :=
  .next { s.logRead s.result with queue := .access (.write offPREV 4 s.result) :: s.queue }

/-- One event, already taken off the schedule. -/
def perform (e : Event) (s : State) : Host.Outcome State Fault Refusal :=
  match e with
  | .access x => hostAccess x s
  | .busRead addr width =>
    match s.cfg.windowOffset addr with
    | some off => hostRead off width s
    | none => .refused (.outsideRegisterWindow addr)
  | .busWrite addr width v =>
    match s.cfg.windowOffset addr with
    | some off => hostWrite off width v s
    | none => .refused (.outsideRegisterWindow addr)
  | .poll => hostPoll s
  | .chain => hostChain s
  | .store _ addr b =>
    if addr < s.cfg.space then .next (s.storeByte addr b) else .fault (.noSuchBufferAddress addr)
  | .engine => .next s.engineStep
  | .reset => .next s.hardReset

/-- The next event of the schedule; with none left the engine steps (R260). -/
def advanceQueue (s : State) : Host.Outcome State Fault Refusal :=
  match s.queue with
  | [] => .next s.engineStep
  | e :: rest => perform e { s with queue := rest }

/-- The next event of the schedule while a CMD write waits and BUSY = 1: what the host does next stays where it is, and the
engine steps instead (R48, R256). -/
def advanceBlocked (s : State) : Host.Outcome State Fault Refusal :=
  match s.queue with
  | [] => .next s.engineStep
  | e :: rest => if e.isHostAccess then .next s.engineStep else perform e { s with queue := rest }

/-- One step of the whole machine. A waiting CMD write is accepted in the first step after BUSY becomes 0 (R48). -/
def advance (s : State) : Host.Outcome State Fault Refusal :=
  match s.waiting with
  | none => advanceQueue s
  | some w => if s.busy then advanceBlocked s else accept w { s with waiting := none }

/-- The state in which the very next step accepts the given command word as a CMD write with BUSY = 0
(notes/assumptions/22.md): the engine's present work ended, no other CMD write waiting, the write at the head of the
host's program. -/
def State.withCommand (s : State) (w : Word) : State :=
  { s.settle with waiting := none, queue := .access (.write offCMD 4 w) :: s.settle.queue }

end Sys2Proof.Machine
end

