-- ==== Sys2Proof/Machine/HostAsm.lean ====
section
/-! DEFINITION. The host assembly syntax of 30_encoding.md R114 and R115: each statement as its events. -/

namespace Sys2Proof.Machine

/-- `wr REG, imm32` (R114). -/
def asmWr (off : Nat) (v : Word) : List Event := [.access (.write off 4 v)]
/-- `rd REG` (R114). -/
def asmRd (off : Nat) : List Event := [.access (.read off 4)]
/-- `nop`, `build`, `crc`, `crcpf`, `rdtbl k, b`, `rdhtbl q` (R114). -/
def asmCommand (i : Instr) : List Event := asmWr offCMD (encode i)
/-- `setaddr A` (R115). -/
def asmSetaddr (v : DWord) : List Event :=
  asmWr offADDR_LO (v.extractLsb' 0 32) ++ asmWr offADDR_HI (v.extractLsb' 32 32)
/-- `setlen N` (R115). -/
def asmSetlen (v : DWord) : List Event :=
  asmWr offLEN_LO (v.extractLsb' 0 32) ++ asmWr offLEN_HI (v.extractLsb' 32 32)
/-- `setpfd D` (R115). -/
def asmSetpfd (v : DWord) : List Event :=
  asmWr offPFD_LO (v.extractLsb' 0 32) ++ asmWr offPFD_HI (v.extractLsb' 32 32)
/-- `crcbuf A, N, P` (R115). -/
def asmCrcbuf (addr len : DWord) (p : Word) : List Event :=
  asmSetaddr addr ++ asmSetlen len ++ asmWr offPREV p ++ asmCommand .crc ++ [.poll]
/-- `crcpfbuf A, N, P, D` (R115). -/
def asmCrcpfbuf (addr len : DWord) (p : Word) (pfd : DWord) : List Event :=
  asmSetaddr addr ++ asmSetlen len ++ asmWr offPREV p ++ asmSetpfd pfd ++ asmCommand .crcpf ++ [.poll]

end Sys2Proof.Machine
end

