-- ==== Sys2Proof/Safety.lean ====
section
/-! DEFINITION. The terms claims use: the invariant of the machine, the end of a run, what is observed of a state
(10_state.md R37, R39, R42, R50, R54; 20_memory.md R73; 42_prefetch.md R201; 60_exceptions.md R221; 70_reset_and_hazards.md
R261). -/

namespace Sys2Proof.Machine

/-- The builder's indices point at an entry it has still to write (R136). -/
def State.builderInRange (s : State) : Prop :=
  (s.bk < s.cfg.strategy.nslices ∧ s.bi < 256)
    ∨ (s.bk = s.cfg.strategy.nslices ∧ s.cfg.strategy.hasHalf = true ∧ s.bi < 16)

/-- Every slice entry before the builder's indices holds its value (R132, R133, R136). -/
def State.slicesBuiltSoFar (s : State) : Prop :=
  ∀ k < s.cfg.strategy.nslices, ∀ b < 256, (k < s.bk ∨ (k = s.bk ∧ b < s.bi)) →
    s.tableEntry k (BitVec.ofNat 8 b) = sliceEntry k (BitVec.ofNat 8 b)

/-- Every half-byte entry before the builder's indices holds its value (R134, R136). -/
def State.halfBuiltSoFar (s : State) : Prop :=
  s.bk = s.cfg.strategy.nslices → ∀ q < 16, q < s.bi → s.halfTableEntry (BitVec.ofNat 4 q) = halfEntry (BitVec.ofNat 4 q)

/-- The table set has the size of R53. -/
structure State.TableShape (s : State) : Prop where
  slices : s.tables.length = s.cfg.strategy.nslices
  rows : ∀ row ∈ s.tables, row.length = 256
  half : s.half.length = if s.cfg.strategy.hasHalf then 16 else 0

/-- What holds of a running command (R50, R160, R162, R222). -/
structure State.RunningOk (s : State) : Prop where
  /-- The latched buffer passed the range check. -/
  range : s.a.toNat + s.n.toNat ≤ s.cfg.space
  /-- cur and rem advance together: cur + rem = a + n. -/
  place : s.cur + s.rem = s.a.toNat + s.n.toNat
  start : s.a.toNat ≤ s.cur
  /-- The datapath is that of R162. -/
  datapath : s.dp = if s.tvalid then s.cfg.strategy else .bitwise
  /-- One read for every byte consumed (R73). -/
  reads : s.reads.length = s.cur - s.a.toNat
  /-- The working CRC is the fold of the bytes consumed, as long as none of the buffer's bytes was overwritten. -/
  folded : s.raced = [] → s.c = (s.mem.bytes s.a.toNat (s.cur - s.a.toNat)).foldl bytestepBit (~~~ s.p)

/-- What holds of a running build (R37, R136). -/
structure State.BuildingOk (s : State) : Prop where
  builds : s.cfg.builds = true
  tvalid : s.tvalid = false
  place : s.builderInRange
  slices : s.slicesBuiltSoFar
  half : s.halfBuiltSoFar

/-- The invariant of the machine. -/
structure Inv (s : State) : Prop where
  /-- 32 ≤ AW ≤ 64 (R14). -/
  cfg : s.cfg.wf = true
  /-- The memory is in canonical form. -/
  memCanonical : s.mem.wf = true
  /-- The memory lists no address outside 0 to 2^AW − 1 (R70). -/
  memSpace : ∀ e ∈ s.mem, e.1 < s.cfg.space
  /-- The bits of ADDR at positions AW to 63 are 0 (R42). -/
  addrHardwired : s.addr.toNat < s.cfg.space
  /-- ILL and BERR are never both 1 (R39). -/
  oneError : ¬ (s.ill = true ∧ s.berr = true)
  /-- While BUSY = 1 neither is set: the word that started the work cleared both (R38, R39). -/
  busyNoError : s.phase ≠ .idle → s.ill = false ∧ s.berr = false
  /-- The table set has its size (R53). -/
  shape : s.TableShape
  /-- TVALID = 1 says that the tables hold their values (R37, R54). -/
  tablesValid : s.tvalid = true → s.tables = builtTables s.cfg ∧ s.half = builtHalf s.cfg
  /-- TVALID is 1 at all times when no table is needed, and under ROM (R37). -/
  tvalidAlways : s.cfg.builds = false → s.tvalid = true
  building : s.phase = .building → s.BuildingOk
  running : s.phase = .running → s.RunningOk
  /-- The reads of a command are a, a + 1, …, each once, none outside [a, a + n) (R73). -/
  readsInOrder : s.reads = List.range' s.a.toNat s.reads.length
  readsInside : s.reads.length ≤ s.n.toNat
  /-- Every hint lies in [a, a + n) (R201). -/
  hintsInside : ∀ h ∈ s.hints, s.a.toNat ≤ h ∧ h < s.a.toNat + s.n.toNat
  /-- A CRC sends no hint (R206), nor does an engine with PF_IMPL = 0 (R204). -/
  hintsOnlyPf : (s.pfOn = false ∨ s.cfg.pfImpl = false) → s.hints = []
  /-- An overwritten byte of a running command's buffer is on the model fault record (R224). -/
  racedRecorded : s.modelFaults = [] → s.raced = []

/-- The end of a run (R261): the host has performed its last statement, no CMD write waits, BUSY = 0. DESIGN CHOICE: events
of the schedule that are not the host's (another agent's store, a reset, an engine step) and still stand on it hold the
end off too, so the whole schedule is empty (notes/assumptions/36.md). -/
def State.finished (s : State) : Prop :=
  s.queue = [] ∧ s.waiting = none ∧ s.busy = false

/-- A good final state (R221, R261): the run has ended and no model fault is on record. -/
def State.goodFinal (s : State) : Prop :=
  s.finished ∧ s.modelFaults = []

/-- The command word the next step accepts, if it accepts one (R48): the waiting one, or the CMD write at the head of the
host's program, while BUSY = 0. -/
def State.acceptsNext (s : State) : Option Word :=
  if s.busy then none
  else
    match s.waiting, s.queue with
    | some w, _ => some w
    | none, .access (.write off 4 w) :: _ => if off = offCMD then some w else none
    | none, .busWrite addr 4 w :: _ => if s.cfg.windowOffset addr = some offCMD then some w else none
    | none, _ => none

/-- Every byte of a buffer answers (R223, R254). -/
def bufferAnswers (cfg : Config) (addr len : Nat) : Prop :=
  ∀ i < len, cfg.memOk (addr + i) = true

/-- The state with what only a CRCPF has put to nothing: the hints and their switch (R203). -/
def State.withoutPrefetch (s : State) : State :=
  { s with pfOn := false, hints := [] }

/-- The state with the host-written registers put to nothing: two states that agree on the rest differ at most in
PREV, ADDR, LEN, PFD (R46, R255). -/
def State.withoutOperands (s : State) : State :=
  { s with prev := 0, addrLo := 0, addrHi := 0, lenLo := 0, lenHi := 0, pfdLo := 0, pfdHi := 0 }

end Sys2Proof.Machine
end

