-- ==== Sys2Proof/Certificates/Slice0/Obligations.lean ====
section
/-! DEFINITION. The statements for the provers. Each docstring names the rules of spec/ it formalises. -/

open Sys2Proof Sys2Proof.Machine

/-! ## Encoding (30_encoding.md) -/

/-- R104 to R108: decoding an encoded command gives it back, with every operand at every value, and a word that decodes
to a command is that command's word. -/
def Obligations.DecodeInvertsEncode : Prop :=
  (∀ i : Instr, decodeWord (encode i) = .ok i) ∧
  ∀ (w : Word) (i : Instr), decodeWord w = .ok i → w = encode i

/-- R103 to R110, words of V70 written out from the spec. -/
def Obligations.SpecWordsDecode : Prop :=
  decodeWord 0x00000000#32 = .ok .nop ∧
  decodeWord 0x00000001#32 = .ok .build ∧
  decodeWord 0x00000002#32 = .ok .crc ∧
  decodeWord 0x00000003#32 = .ok .crcpf ∧
  decodeWord 0b00000000000010000000000100000100#32 = .ok (.rdtbl 1 0x80) ∧
  decodeWord 0b00000000000100001000000000000100#32 = .ok (.rdhtbl 8) ∧
  decodeWord 0x00000044#32 = .error .reservedBits ∧
  decodeWord 0x00000005#32 = .error .reservedOp

/-- R110: which words are ILLEGAL, and that accepting one clears BERR, sets ILL and changes nothing else. -/
def Obligations.IllegalWordsSetIllOnly : Prop :=
  (∀ (cfg : Config) (tvalid : Bool) (w : Word),
    decode cfg tvalid w = none ↔
      (5 ≤ (opField w).toNat ∨
       ((opField w).toNat ≤ 3 ∧ w >>> 4 ≠ 0) ∨
       (opField w = 4 ∧ (rsv0Field w ≠ 0 ∨ rsv1Field w ≠ 0)) ∨
       (opField w = 4 ∧ hselField w = false ∧ (cfg.strategy.nslices ≤ (tselField w).toNat ∨ tvalid = false)) ∨
       (opField w = 4 ∧ hselField w = true ∧
         (tselField w ≠ 0 ∨ tidxHighField w ≠ 0 ∨ cfg.strategy ≠ .halfbyte ∨ tvalid = false)))) ∧
  ∀ (s : State) (w : Word), decode s.cfg s.tvalid w = none →
    accept w s = .next { s with ill := true, berr := false }

/-- R48, R109: a word that R109 decodes to a command runs it. -/
def Obligations.AcceptRunsTheDecodedCommand : Prop :=
  ∀ (s : State) (w : Word) (i : Instr), decode s.cfg s.tvalid w = some i →
    i.wellFormed s.cfg s.tvalid = true ∧ w = encode i ∧ accept w s = exec i s

/-- R113: the legal words are 4, and NSLICES × 256 for RDTBL, and 16 for RDHTBL under HALFBYTE, with TVALID = 1; 4100 in
the default configuration. -/
def Obligations.LegalWordCount : Prop :=
  (∀ (cfg : Config) (tvalid : Bool) (w : Word), w ∈ legalWords cfg tvalid ↔ decode cfg tvalid w ≠ none) ∧
  (∀ (cfg : Config) (tvalid : Bool), (legalWords cfg tvalid).Nodup) ∧
  (∀ cfg : Config, (legalWords cfg true).length =
    4 + cfg.strategy.nslices * 256 + (if cfg.strategy = .halfbyte then 16 else 0)) ∧
  (legalWords Config.default true).length = 4100

/-! ## The fold (40_table_builder.md, 41_checksum.md) -/

/-- R134, R135: T[k][b] is what a working CRC equal to b becomes after k + 1 bytes of zero data; the bit step is linear;
H[q] = T[0][16 q]. -/
def Obligations.SliceEntryPassesZeroBytes : Prop :=
  (∀ (k : Nat) (b : Byte), sliceEntry k b = bitsteps (8 * (k + 1)) (b.setWidth 32)) ∧
  (∀ x y : Word, bitstep (x ^^^ y) = bitstep x ^^^ bitstep y) ∧
  ∀ q : Nibble, halfEntry q = baseEntry (q.setWidth 8 <<< 4)

/-- R165, R166, R167: the BYTE, TABLELESS (by value and by the realisation the rule gives) and HALFBYTE steps are the
BITWISE step. -/
def Obligations.ByteStepsAgree : Prop :=
  ∀ (c : Word) (d : Byte),
    bytestepTab baseEntry c d = bytestepBit c d ∧
    bytestepTl c d = bytestepBit c d ∧
    bytestepTlCircuit c d = bytestepBit c d ∧
    bytestepHalf halfEntry c d = bytestepBit c d

/-- R169: a slicing step is N BITWISE steps. -/
def Obligations.SlicingStepIsByteSteps : Prop :=
  ∀ (N : Nat) (c : Word) (ds : List Byte), (N = 4 ∨ N = 8 ∨ N = 16) → ds.length = N →
    slicestep sliceEntry N c ds = ds.foldl bytestepBit c

/-- R170, R171, R172: the three slicing steps written out, for any table lookup. -/
def Obligations.SlicingStepsWrittenOut : Prop :=
  (∀ (t : Nat → Byte → Word) (c : Word) (d0 d1 d2 d3 : Byte),
    let w := c ^^^ le32 d0 d1 d2 d3
    slicestep t 4 c [d0, d1, d2, d3] =
      t 3 (byteOf w 0) ^^^ t 2 (byteOf w 1) ^^^ t 1 (byteOf w 2) ^^^ t 0 (byteOf w 3)) ∧
  (∀ (t : Nat → Byte → Word) (c : Word) (d0 d1 d2 d3 d4 d5 d6 d7 : Byte),
    let w := c ^^^ le32 d0 d1 d2 d3
    slicestep t 8 c [d0, d1, d2, d3, d4, d5, d6, d7] =
      t 7 (byteOf w 0) ^^^ t 6 (byteOf w 1) ^^^ t 5 (byteOf w 2) ^^^ t 4 (byteOf w 3)
        ^^^ t 3 d4 ^^^ t 2 d5 ^^^ t 1 d6 ^^^ t 0 d7) ∧
  (∀ (t : Nat → Byte → Word) (c : Word) (d0 d1 d2 d3 d4 d5 d6 d7 d8 d9 d10 d11 d12 d13 d14 d15 : Byte),
    let w := c ^^^ le32 d0 d1 d2 d3
    slicestep t 16 c [d0, d1, d2, d3, d4, d5, d6, d7, d8, d9, d10, d11, d12, d13, d14, d15] =
      t 15 (byteOf w 0) ^^^ t 14 (byteOf w 1) ^^^ t 13 (byteOf w 2) ^^^ t 12 (byteOf w 3)
        ^^^ t 11 d4 ^^^ t 10 d5 ^^^ t 9 d6 ^^^ t 8 d7 ^^^ t 7 d8 ^^^ t 6 d9 ^^^ t 5 d10 ^^^ t 4 d11
        ^^^ t 3 d12 ^^^ t 2 d13 ^^^ t 1 d14 ^^^ t 0 d15)

/-- R178: the reference function of a concatenation. -/
def Obligations.ChecksumsCompose : Prop :=
  ∀ (p : Word) (b1 b2 : List Byte), crc32 (crc32 p b1) b2 = crc32 p (b1 ++ b2)

/-! ## The register window (10_state.md) -/

/-- R31: an access that is not 32 bits wide, is misaligned or lies outside 0x00..0xFC is refused; every other access of a
host that no CMD write holds up is performed. The same for the system addresses of the window (R15, R30); a system address
outside it is refused, which is the model's choice (notes/assumptions/21.md). -/
def Obligations.UnadmittedAccessesAreRefused : Prop :=
  (∀ (s : State) (off width : Nat) (v : Word) (rest : List Event), s.waiting = none →
    (s.queue = .access (.read off width) :: rest ∨ s.queue = .access (.write off width v) :: rest) →
      (¬ (width = 4 ∧ off % 4 = 0 ∧ off < 256) → step s = .refused (.accessNotAdmitted off width)) ∧
      ((width = 4 ∧ off % 4 = 0 ∧ off < 256) → ∃ t, step s = .next t)) ∧
  ∀ (s : State) (addr width : Nat) (v : Word) (rest : List Event), s.waiting = none →
    (s.queue = .busRead addr width :: rest ∨ s.queue = .busWrite addr width v :: rest) →
      (¬ (s.cfg.regBase ≤ addr ∧ addr < s.cfg.regBase + 256) → step s = .refused (.outsideRegisterWindow addr)) ∧
      ((s.cfg.regBase ≤ addr ∧ addr < s.cfg.regBase + 256) → ¬ (width = 4 ∧ (addr - s.cfg.regBase) % 4 = 0) →
        step s = .refused (.accessNotAdmitted (addr - s.cfg.regBase) width)) ∧
      ((s.cfg.regBase ≤ addr ∧ addr < s.cfg.regBase + 256) → (width = 4 ∧ (addr - s.cfg.regBase) % 4 = 0) →
        ∃ t, step s = .next t)

/-- R30: which register stands at which offset. R31, R114: an admitted read returns the register's value to the host and
changes nothing else (R77), by offset and at the system address REG_BASE + offset (R15).
The schedule and the record of values read are the model's own (notes/assumptions/9.md). -/
def Obligations.HostReadReturnsRegister : Prop :=
  (∀ s : State,
    s.regRead 0x00 = 0 ∧ s.regRead 0x04 = s.status ∧ s.regRead 0x08 = s.prev ∧ s.regRead 0x0C = s.result ∧
    s.regRead 0x10 = s.addrLo ∧ s.regRead 0x14 = s.addrHi ∧ s.regRead 0x18 = s.lenLo ∧ s.regRead 0x1C = s.lenHi ∧
    s.regRead 0x20 = s.pfdLo ∧ s.regRead 0x24 = s.pfdHi ∧ s.regRead 0x28 = s.cfg.word) ∧
  ∀ (s : State) (off : Nat) (rest : List Event), s.waiting = none → off % 4 = 0 → off < 256 →
    (s.queue = .access (.read off 4) :: rest ∨ s.queue = .busRead (s.cfg.regBase + off) 4 :: rest) →
    step s = .next { s with queue := rest, readLog := s.regRead off :: s.readLog }

/-- R46, R255: an admitted write to a register other than CMD is performed at once, whatever BUSY is. -/
def Obligations.OperandWriteIsPerformedAtOnce : Prop :=
  ∀ (s : State) (off : Nat) (v : Word) (rest : List Event), s.waiting = none → off % 4 = 0 → off < 256 →
    off ≠ offCMD →
    (s.queue = .access (.write off 4 v) :: rest ∨ s.queue = .busWrite (s.cfg.regBase + off) 4 v :: rest) →
    ∃ t, step s = .next t ∧ t = State.regWrite { s with queue := rest } off v ∧
      t.withoutOperands = { s with queue := rest }.withoutOperands

/-- R32: what reserved offsets, CMD and the read-only registers read and ignore. -/
def Obligations.ReservedAndReadOnlyOffsets : Prop :=
  ∀ (s : State) (v : Word),
    s.regRead offCMD = 0 ∧
    (∀ off, 0x2C ≤ off → s.regRead off = 0 ∧ s.regWrite off v = s) ∧
    s.regWrite offSTATUS v = s ∧ s.regWrite offRESULT v = s ∧ s.regWrite offCFG v = s

/-- R43, R44: LEN and PFD read back as written, in both halves, and no other register changes with them. -/
def Obligations.LenAndPfdReadBack : Prop :=
  ∀ (s : State) (off : Nat) (v : Word),
    (off = offLEN_LO ∨ off = offLEN_HI ∨ off = offPFD_LO ∨ off = offPFD_HI) →
    (s.regWrite off v).regRead off = v ∧
    (∀ off', off' ≠ off → (s.regWrite off v).regRead off' = s.regRead off') ∧
    s.len.toNat = (s.regRead offLEN_HI).toNat * 2 ^ 32 + (s.regRead offLEN_LO).toNat ∧
    s.pfd.toNat = (s.regRead offPFD_HI).toNat * 2 ^ 32 + (s.regRead offPFD_LO).toNat

/-- R40: PREV reads back as written, and no other register changes with it. -/
def Obligations.PrevReadsBack : Prop :=
  ∀ (s : State) (v : Word),
    (s.regWrite offPREV v).regRead offPREV = v ∧
    ∀ off, off ≠ offPREV → (s.regWrite offPREV v).regRead off = s.regRead off

/-- R42: ADDR bits below AW read back as written, bits at and above AW read 0, and no other register changes with them.
R33: ADDR = ADDR_HI << 32 | ADDR_LO. -/
def Obligations.AddressBitsAboveAwAreHardwired : Prop :=
  ∀ (s : State) (v : Word),
    (∀ i < 32,
      ((s.regWrite offADDR_LO v).regRead offADDR_LO).getLsbD i = (decide (i < s.cfg.aw) && v.getLsbD i) ∧
      ((s.regWrite offADDR_HI v).regRead offADDR_HI).getLsbD i = (decide (32 + i < s.cfg.aw) && v.getLsbD i)) ∧
    (∀ off, off ≠ offADDR_LO → (s.regWrite offADDR_LO v).regRead off = s.regRead off) ∧
    (∀ off, off ≠ offADDR_HI → (s.regWrite offADDR_HI v).regRead off = s.regRead off) ∧
    s.addr.toNat = (s.regRead offADDR_HI).toNat * 2 ^ 32 + (s.regRead offADDR_LO).toNat

/-- R35: the fields of STATUS; a write to it has no effect. -/
def Obligations.StatusFields : Prop :=
  ∀ (s : State) (i : Nat) (v : Word),
    ((s.regRead offSTATUS).getLsbD i =
      if i = 0 then s.busy else if i = 1 then s.tvalid else if i = 2 then s.ill else if i = 3 then s.berr else false) ∧
    s.regWrite offSTATUS v = s

/-- R45: the fields of CFG, a constant of the configuration that no write changes. -/
def Obligations.CfgFields : Prop :=
  (∀ (s t : State) (v : Word), s.regWrite offCFG v = s ∧ (s.cfg = t.cfg → s.regRead offCFG = t.regRead offCFG)) ∧
  (∀ s : State, s.cfg.wf = true →
    let w := s.regRead offCFG
    (w.extractLsb' 0 3).toNat = s.cfg.strategy.code ∧ w.getLsbD 3 = false ∧
    (w.extractLsb' 4 2).toNat = s.cfg.tableInit.code ∧ w.extractLsb' 6 2 = 0 ∧
    w.getLsbD 8 = s.cfg.pfImpl ∧ w.extractLsb' 9 7 = 0 ∧
    (w.extractLsb' 16 5).toNat = s.cfg.strategy.nslices ∧ w.getLsbD 21 = s.cfg.strategy.hasHalf ∧
    w.extractLsb' 22 2 = 0 ∧ (w.extractLsb' 24 7).toNat = s.cfg.aw ∧ w.getLsbD 31 = false) ∧
  Config.default.word = 0x40100116#32

/-! ## The commands -/

/-- R142: NOP clears ILL and BERR, completes in its acceptance step and changes nothing else. -/
def Obligations.NopOnlyClearsErrors : Prop :=
  encode .nop = 0x00000000#32 ∧
  (∀ s : State, exec .nop s = .next { s with ill := false, berr := false }) ∧
  ∀ s : State, s.busy = true → issue (encode .nop) s = .next { s with waiting := some (encode .nop) }

/-- R138, R36: BUILD starts the builder when NEEDS_TABLES and TABLE_INIT ≠ ROM, and otherwise completes in its acceptance
step. That the acceptance sets the builder's indices to 0 is the model's choice (notes/assumptions/34.md). -/
def Obligations.BuildStartsTheBuilder : Prop :=
  (∀ s : State, s.cfg.strategy.needsTables = true → s.cfg.tableInit ≠ .rom →
    exec .build s =
      .next { s with ill := false, berr := false, tvalid := false, phase := .building, bk := 0, bi := 0 }) ∧
  ∀ s : State, (s.cfg.strategy.needsTables = false ∨ s.cfg.tableInit = .rom) →
    exec .build s = .next { s with ill := false, berr := false }

/-- R140: RDTBL k, b reads T[k][b] into RESULT; with k ≥ NSLICES or TVALID = 0 the word is ILLEGAL. -/
def Obligations.RdtblReadsTheEntry : Prop :=
  ∀ (k : Nibble) (b : Byte) (s : State),
    encode (.rdtbl k b) = 0x00000004#32 ||| (k.setWidth 32 <<< 8) ||| (b.setWidth 32 <<< 12) ∧
    ((k.toNat < s.cfg.strategy.nslices ∧ s.tvalid = true) →
      exec (.rdtbl k b) s = .next { s with ill := false, berr := false, result := s.tableEntry k.toNat b }) ∧
    (¬ (k.toNat < s.cfg.strategy.nslices ∧ s.tvalid = true) →
      exec (.rdtbl k b) s = .next { s with ill := true, berr := false })

/-- R141: RDHTBL q reads H[q] into RESULT; under another STRATEGY or with TVALID = 0 the word is ILLEGAL. -/
def Obligations.RdhtblReadsTheEntry : Prop :=
  ∀ (q : Nibble) (s : State),
    encode (.rdhtbl q) = 0x00100004#32 ||| (q.setWidth 32 <<< 12) ∧
    ((s.cfg.strategy = .halfbyte ∧ s.tvalid = true) →
      exec (.rdhtbl q) s = .next { s with ill := false, berr := false, result := s.halfTableEntry q }) ∧
    (¬ (s.cfg.strategy = .halfbyte ∧ s.tvalid = true) →
      exec (.rdhtbl q) s = .next { s with ill := true, berr := false })

/-- R132 to R134, R140, R141: in a state of the invariant a legal table read returns the entry's value. -/
def Obligations.TableReadsReturnBuiltValues : Prop :=
  ∀ s : State, Inv s → s.tvalid = true →
    (∀ (k : Nibble) (b : Byte), k.toNat < s.cfg.strategy.nslices →
      ∃ t, exec (.rdtbl k b) s = .next t ∧ t.result = sliceEntry k.toNat b) ∧
    (∀ q : Nibble, s.cfg.strategy = .halfbyte → ∃ t, exec (.rdhtbl q) s = .next t ∧ t.result = halfEntry q)

/-- R46, R160 to R162: the acceptance of CRC when the buffer passes the range check. That CRC latches d too is R46's word
(notes/assumptions/15.md); the empty port record is the model's own (notes/assumptions/12.md, 13.md, 17.md). -/
def Obligations.CrcStartsTheRun : Prop :=
  ∀ s : State, s.addr.toNat + s.len.toNat ≤ 2 ^ s.cfg.aw →
    exec .crc s = .next { s with
      ill := false, berr := false, a := s.addr, n := s.len, p := s.prev, d := s.pfd, pfOn := false, c := ~~~ s.prev,
      dp := if s.tvalid then s.cfg.strategy else .bitwise, cur := s.addr.toNat, rem := s.len.toNat,
      phase := .running, reads := [], hints := [], raced := [] }

/-- R46, R200: the acceptance of CRCPF when the buffer passes the range check; the empty port record is the model's own
(notes/assumptions/12.md, 13.md, 17.md). -/
def Obligations.CrcpfStartsTheRun : Prop :=
  ∀ s : State, s.addr.toNat + s.len.toNat ≤ 2 ^ s.cfg.aw →
    exec .crcpf s = .next { s with
      ill := false, berr := false, a := s.addr, n := s.len, p := s.prev, d := s.pfd, pfOn := true, c := ~~~ s.prev,
      dp := if s.tvalid then s.cfg.strategy else .bitwise, cur := s.addr.toNat, rem := s.len.toNat,
      phase := .running, reads := [], hints := [], raced := [] }

/-- R222: a CRC or CRCPF with a + n > 2^AW sets BERR, reads nothing, sends no hint and leaves RESULT, the table set, the
operand registers and BUSY as they were; with n = 0 the check always passes. The next state is given whole: it differs in
ILL, BERR, the latches (notes/assumptions/16.md), the CRCPF switch and the emptied port record, which is the model's own
(notes/assumptions/12.md, 13.md, 17.md). -/
def Obligations.RangeErrorSetsBerrAndLatches : Prop :=
  (∀ s : State, Inv s → s.len = 0 → s.addr.toNat + s.len.toNat ≤ 2 ^ s.cfg.aw) ∧
  ∀ s : State, 2 ^ s.cfg.aw < s.addr.toNat + s.len.toNat →
    exec .crc s = .next { s with
      ill := false, berr := true, a := s.addr, n := s.len, p := s.prev, d := s.pfd, pfOn := false,
      reads := [], hints := [], raced := [] } ∧
    exec .crcpf s = .next { s with
      ill := false, berr := true, a := s.addr, n := s.len, p := s.prev, d := s.pfd, pfOn := true,
      reads := [], hints := [], raced := [] }

/-- R38: ILL after the acceptance of a word says whether the word was illegal, and only an acceptance (or a reset) changes
it. -/
def Obligations.IllDescribesTheLastWord : Prop :=
  (∀ (s : State) (w : Word), ∃ t, accept w s = .next t ∧ t.ill = (decode s.cfg s.tvalid w).isNone) ∧
  ∀ s t : State, step s = .next t → s.acceptsNext = none → t.ill ≠ s.ill → ∃ rest, s.queue = .reset :: rest

/-- R39, R225: after the acceptance of a word BERR is 1 exactly for a CRC or CRCPF whose buffer fails the range check. -/
def Obligations.BerrAtAcceptanceIsTheRangeError : Prop :=
  ∀ (s : State) (w : Word), ∃ t, accept w s = .next t ∧
    (t.berr = true ↔
      (w = 0x00000002#32 ∨ w = 0x00000003#32) ∧ 2 ^ s.cfg.aw < s.addr.toNat + s.len.toNat)

/-- R46, R102, R226: what no command's acceptance changes, and what only the named commands change. -/
def Obligations.CommandFrame : Prop :=
  ∀ (i : Instr) (s t : State), exec i s = .next t →
    (∀ x, t.mem.read x = s.mem.read x) ∧
    t.cfg = s.cfg ∧ t.prev = s.prev ∧ t.addrLo = s.addrLo ∧ t.addrHi = s.addrHi ∧ t.lenLo = s.lenLo ∧
    t.lenHi = s.lenHi ∧ t.pfdLo = s.pfdLo ∧ t.pfdHi = s.pfdHi ∧ t.tables = s.tables ∧ t.half = s.half ∧
    t.waiting = s.waiting ∧ t.queue = s.queue ∧ t.readLog = s.readLog ∧ t.modelFaults = s.modelFaults ∧
    t.free = s.free ∧
    (i ≠ .build → t.tvalid = s.tvalid ∧ t.bk = s.bk ∧ t.bi = s.bi) ∧
    ((∀ k b, i ≠ .rdtbl k b) → (∀ q, i ≠ .rdhtbl q) → t.result = s.result) ∧
    (i ≠ .crc → i ≠ .crcpf →
      t.a = s.a ∧ t.n = s.n ∧ t.p = s.p ∧ t.d = s.d ∧ t.c = s.c ∧ t.cur = s.cur ∧ t.rem = s.rem ∧ t.dp = s.dp ∧
      t.pfOn = s.pfOn ∧ t.reads = s.reads ∧ t.hints = s.hints ∧ t.raced = s.raced) ∧
    (i ≠ .build → i ≠ .crc → i ≠ .crcpf → t.phase = s.phase)

/-! ## The engine's steps -/

/-- R72, R137, R168: what no engine step changes, and what only a build or a running command changes.
That a step with bytes left never writes RESULT, because completion is a step of its own, is the model's choice among R176's
two (notes/assumptions/8.md). -/
def Obligations.EngineStepFrame : Prop :=
  ∀ s : State,
    let t := s.engineStep
    (∀ x, t.mem.read x = s.mem.read x) ∧
    t.cfg = s.cfg ∧ t.ill = s.ill ∧ t.prev = s.prev ∧ t.addrLo = s.addrLo ∧ t.addrHi = s.addrHi ∧
    t.lenLo = s.lenLo ∧ t.lenHi = s.lenHi ∧ t.pfdLo = s.pfdLo ∧ t.pfdHi = s.pfdHi ∧ t.a = s.a ∧ t.n = s.n ∧
    t.p = s.p ∧ t.d = s.d ∧ t.dp = s.dp ∧ t.pfOn = s.pfOn ∧ t.waiting = s.waiting ∧ t.queue = s.queue ∧
    t.readLog = s.readLog ∧ t.modelFaults = s.modelFaults ∧ t.raced = s.raced ∧
    (s.phase ≠ .building →
      t.tables = s.tables ∧ t.half = s.half ∧ t.tvalid = s.tvalid ∧ t.bk = s.bk ∧ t.bi = s.bi) ∧
    (s.phase ≠ .running →
      t.result = s.result ∧ t.berr = s.berr ∧ t.c = s.c ∧ t.cur = s.cur ∧ t.rem = s.rem ∧
      t.reads = s.reads ∧ t.hints = s.hints ∧ t.free = s.free) ∧
    (s.rem ≠ 0 → t.result = s.result)

/-- R165 to R175: a step of a running command whose bytes answer and were not overwritten consumes a whole group while
one remains, else one byte, reads exactly those addresses in order, and folds the bytes as the BITWISE step does.
That the step which consumes the last byte leaves the phase RUNNING and RESULT as it was, completion being a step of its own,
is the model's choice among R176's two (notes/assumptions/8.md). -/
def Obligations.DatapathStepFoldsTheNextBytes : Prop :=
  ∀ s : State, Inv s → s.phase = .running → s.rem ≠ 0 → s.raced = [] →
    let k := if s.dp.groupSize ≤ s.rem then s.dp.groupSize else 1
    bufferAnswers s.cfg s.cur k →
    s.engineStep.c = (s.mem.bytes s.cur k).foldl bytestepBit s.c ∧
    s.engineStep.cur = s.cur + k ∧ s.engineStep.rem + k = s.rem ∧
    s.engineStep.reads = s.reads ++ List.range' s.cur k ∧
    s.engineStep.phase = .running ∧ s.engineStep.berr = s.berr ∧ s.engineStep.result = s.result

/-- R223: a failing read of a running command sets BERR, clears BUSY and ends it; the reads made are those up to and
including the failing one, and RESULT stays. That the failing read is on the record is the model's choice
(notes/assumptions/17.md). -/
def Obligations.BusErrorEndsTheCommand : Prop :=
  ∀ (s : State) (j : Nat), s.phase = .running → s.rem ≠ 0 →
    j < (if s.dp.groupSize ≤ s.rem then s.dp.groupSize else 1) →
    (∀ i < j, s.cfg.memOk (s.cur + i) = true) → s.cfg.memOk (s.cur + j) = false →
    s.engineStep.berr = true ∧ s.engineStep.busy = false ∧ s.engineStep.phase = .idle ∧
    s.engineStep.result = s.result ∧ s.engineStep.reads = s.reads ++ List.range' s.cur (j + 1) ∧
    (s.tables = s.engineStep.tables ∧ s.half = s.engineStep.half)

/-- R160, R176: completion writes RESULT <- ~c, BUSY <- 0 and phase <- IDLE, and nothing else.
That completion is a step of its own is the model's choice (notes/assumptions/8.md). -/
def Obligations.CompletionWritesResult : Prop :=
  ∀ s : State, s.phase = .running → s.rem = 0 →
    s.engineStep = { s with result := ~~~ s.c, phase := .idle } ∧ s.engineStep.busy = false

/-- R181, R160, R73: a CRC or CRCPF accepted while BUSY = 0 whose buffer passes the range check and answers completes
within LEN + 1 engine steps with RESULT = CRC32(PREV, B), whatever STRATEGY and TVALID, having read each byte once in
order; ILL and BERR are 0.
The bound is that of the model's engine steps (notes/assumptions/8.md). -/
def Obligations.ChecksumCommandsReturnTheReference : Prop :=
  ∀ (i : Instr) (s : State), (i = .crc ∨ i = .crcpf) → Inv s → s.busy = false →
    s.addr.toNat + s.len.toNat ≤ 2 ^ s.cfg.aw → bufferAnswers s.cfg s.addr.toNat s.len.toNat →
    ∃ t, exec i s = .next t ∧ ∃ m ≤ s.len.toNat + 1,
      let u := State.engineSteps m t
      u.busy = false ∧ u.result = crc32 s.prev (s.mem.bytes s.addr.toNat s.len.toNat) ∧
      u.reads = List.range' s.addr.toNat s.len.toNat ∧ u.ill = false ∧ u.berr = false ∧
      u.tvalid = s.tvalid ∧ u.tables = s.tables ∧ u.half = s.half ∧ (∀ x, u.mem.read x = s.mem.read x)

/-- R177: a CRC of no bytes reads nothing and leaves RESULT = PREV. That it completes in exactly one engine step is the
model's choice (notes/assumptions/8.md). -/
def Obligations.ZeroLengthReturnsPrev : Prop :=
  ∀ s : State, Inv s → s.busy = false → s.len = 0 →
    ∃ t, exec .crc s = .next t ∧ t.engineStep.result = s.prev ∧ t.engineStep.reads = [] ∧
      t.engineStep.busy = false ∧ t.engineStep.berr = false

/-- R203: a CRCPF leaves the RESULT, STATUS and reads that a CRC leaves, step by step: the two runs differ in the hints and
their switch only, whatever PFD and the hints' free values are. That they do not differ in the latch d rests on CRC latching
PFD too, R46's word (notes/assumptions/15.md). -/
def Obligations.PrefetchIsNeutral : Prop :=
  ∀ s : State, ∃ t u, exec .crc s = .next t ∧ exec .crcpf s = .next u ∧
    ∀ m : Nat,
      (State.engineSteps m u).withoutPrefetch = (State.engineSteps m t).withoutPrefetch ∧
      (State.engineSteps m u).result = (State.engineSteps m t).result ∧
      (State.engineSteps m u).status = (State.engineSteps m t).status ∧
      (State.engineSteps m u).reads = (State.engineSteps m t).reads

/-- R200, R201, R204, R206: a step sends at most one hint, at the start of one of the ⌊n/16⌋ groups, at g + d inside the
buffer or else at a + n − 1; with PF_IMPL = 0, and for a CRC, none; other engine steps send none, and every hint lies in
the buffer. For every value of the free values. That the step which consumes the group's first byte is the one that sends
its hint is the model's choice (notes/assumptions/12.md). -/
def Obligations.HintPlacement : Prop :=
  (∀ s : State, (s.phase ≠ .running ∨ s.rem = 0) → s.engineStep.hints = s.hints) ∧
  (∀ s : State, Inv s → ∀ h ∈ s.engineStep.hints, s.a.toNat ≤ h ∧ h < s.a.toNat + s.n.toNat) ∧
  ∀ s : State, s.phase = .running → s.rem ≠ 0 →
    s.engineStep.hints = s.hints ∨
    (s.pfOn = true ∧ s.cfg.pfImpl = true ∧
      (s.cur - s.a.toNat) % 16 = 0 ∧ (s.cur - s.a.toNat) / 16 < s.n.toNat / 16 ∧
      ((s.cur + s.d.toNat < s.a.toNat + s.n.toNat ∧ s.engineStep.hints = (s.cur + s.d.toNat) :: s.hints) ∨
       (s.a.toNat + s.n.toNat ≤ s.cur + s.d.toNat ∧ s.engineStep.hints = (s.a.toNat + s.n.toNat - 1) :: s.hints)))

/-- R136, R137: a build ends after finitely many engine steps in the state R136 gives: every entry holds its value,
TVALID = 1, BUSY = 0. The bound is that of the model's one entry a step (notes/assumptions/7.md), and the indices' value
is its choice (notes/assumptions/34.md). -/
def Obligations.BuildEndsWithTheTables : Prop :=
  ∀ s : State, Inv s → s.phase = .building →
    ∃ m ≤ s.cfg.strategy.nslices * 256 + 16,
      State.engineSteps m s =
        { s with tables := builtTables s.cfg, half := builtHalf s.cfg, tvalid := true, phase := .idle, bk := 0, bi := 0 }

/-- R139, R54: a BUILD when TVALID = 1 ends with the table set it found. -/
def Obligations.RebuildKeepsTheTables : Prop :=
  ∀ s : State, Inv s → s.busy = false → s.tvalid = true →
    ∃ t, exec .build s = .next t ∧ ∃ m,
      (State.engineSteps m t).tables = s.tables ∧ (State.engineSteps m t).half = s.half ∧
      (State.engineSteps m t).tvalid = true ∧ (State.engineSteps m t).busy = false

/-! ## The machine's steps -/

/-- R48, R50: a step whose CMD write is accepted accepts the word, whatever it is: the write at the head of the host's
program (by offset or at REG_BASE), or the one that waits; so it runs the command the word decodes to, and an illegal
word's step is that of R110.
That the waiting one goes before the next event is the model's reading (notes/assumptions/11.md). -/
def Obligations.StepRunsTheDecodedCommand : Prop :=
  ∀ (s : State) (w : Word) (rest : List Event), s.busy = false →
    (s.waiting = none →
      (s.queue = .access (.write offCMD 4 w) :: rest ∨ s.queue = .busWrite s.cfg.regBase 4 w :: rest) →
        step s = accept w { s with queue := rest } ∧
        (∀ i, decodeWord w = .ok i → step s = exec i { s with queue := rest }) ∧
        (decode s.cfg s.tvalid w = none → step s = .next { s with queue := rest, ill := true, berr := false })) ∧
    (s.waiting = some w →
      step s = accept w { s with waiting := none } ∧
      (∀ i, decodeWord w = .ok i → step s = exec i { s with waiting := none }) ∧
      (decode s.cfg s.tvalid w = none → step s = .next { s with waiting := none, ill := true, berr := false }))

/-- The model's placement (notes/assumptions/22.md): the very next step of `withFetchWord` runs the word. -/
def Obligations.PlacedWordRunsNext : Prop :=
  ∀ (s : State) (w : Nat) (i : Instr), decodeTableWord 32 w = some i →
    step (s.withFetchWord 32 w) = exec i { s.settle with waiting := none } ∧ s.settle.busy = false

/-- R48, R256: a CMD write while BUSY = 1 waits, by offset and at REG_BASE; while it waits what the host does next (a
register access, a poll, a chain, a store of its own) does not proceed and the engine does.
That the engine then steps, and that stores by other agents and resets go on, is the model's schedule
(notes/assumptions/10.md, 31.md). -/
def Obligations.CmdWriteWaitsWhileBusy : Prop :=
  ∀ (s : State) (w : Word) (rest : List Event), s.busy = true →
    (s.waiting = none →
      (s.queue = .access (.write offCMD 4 w) :: rest ∨ s.queue = .busWrite s.cfg.regBase 4 w :: rest) →
        step s = .next { s with queue := rest, waiting := some w }) ∧
    (s.waiting = some w →
      (∀ x, s.queue = .access x :: rest → step s = .next s.engineStep) ∧
      (∀ addr width, s.queue = .busRead addr width :: rest → step s = .next s.engineStep) ∧
      (∀ addr width v, s.queue = .busWrite addr width v :: rest → step s = .next s.engineStep) ∧
      (s.queue = .poll :: rest → step s = .next s.engineStep) ∧
      (s.queue = .chain :: rest → step s = .next s.engineStep) ∧
      (∀ addr b, s.queue = .store .host addr b :: rest → step s = .next s.engineStep) ∧
      (s.queue = [] → step s = .next s.engineStep))

/-- The invariant holds right after reset (R55, R250).
The values the spec leaves open are the model's (notes/assumptions/5.md, 6.md). -/
def Obligations.ResetHasTheInvariant : Prop :=
  Inv State.reset

/-- The invariant holds right after a launch with any admitted configuration and any memory inside the address space
(R55, R71, R251).
The values the spec leaves open are the model's (notes/assumptions/5.md, 6.md). -/
def Obligations.LaunchHasTheInvariant : Prop :=
  ∀ (cfg : Config) (mem : Memory), cfg.wf = true → mem.wf = true → (∀ e ∈ mem, e.1 < cfg.space) →
    Inv (State.launch cfg mem)

/-- Every step of the machine keeps the invariant. -/
def Obligations.StepKeepsTheInvariant : Prop :=
  ∀ s t : State, Inv s → step s = .next t → Inv t

/-- R55: the values after reset. -/
def Obligations.ResetValues : Prop :=
  ∀ (cfg : Config) (mem : Memory),
    let s := State.launch cfg mem
    (s.busy = true ↔ (cfg.strategy.needsTables = true ∧ cfg.tableInit = .auto)) ∧
    (s.tvalid = true ↔ (cfg.strategy.needsTables = false ∨ cfg.tableInit = .rom)) ∧
    s.ill = false ∧ s.berr = false ∧ s.prev = 0 ∧ s.result = 0 ∧ s.addr = 0 ∧ s.len = 0 ∧ s.pfd = 0 ∧
    s.regRead offCFG = cfg.word ∧
    (cfg.tableInit = .rom → s.tables = builtTables cfg ∧ s.half = builtHalf cfg) ∧
    (s.phase = if s.busy then .building else .idle) ∧
    (s.phase = .building → s.bk = 0 ∧ s.bi = 0)

/-- R250, R252: a reset ends the work, drops a waiting CMD write and gives every piece of the engine's state its value of
R55; no RESULT is written for the command. The next state is given whole. Not while a waiting write is being accepted
(BUSY = 0): R48's step comes first (notes/assumptions/11.md).
What stays is the model's reading (notes/assumptions/26.md); what R55 leaves open is its choice (notes/assumptions/5.md,
6.md, 35.md). -/
def Obligations.ResetEndsTheWork : Prop :=
  ∀ (s : State) (rest : List Event), s.queue = .reset :: rest → (s.waiting = none ∨ s.busy = true) →
    step s = .next { State.launch s.cfg s.mem with
      modelFaults := s.modelFaults, queue := rest, readLog := s.readLog, free := s.free }

/-- R41: RESULT changes only in the completion step of a CRC or CRCPF, in the acceptance step of a legal RDTBL or RDHTBL,
and by reset. That a completion finds no byte left, and so RESULT = ~c of the state before, rests on completion being a step of
its own, the model's choice among R176's two (notes/assumptions/8.md). -/
def Obligations.ResultIsWrittenOnlyThen : Prop :=
  ∀ s t : State, step s = .next t → t.result ≠ s.result →
    (s.phase = .running ∧ s.rem = 0 ∧ t.result = ~~~ s.c ∧ t.busy = false) ∨
    (∃ w k b, s.acceptsNext = some w ∧ decode s.cfg s.tvalid w = some (.rdtbl k b) ∧
      t.result = s.tableEntry k.toNat b) ∨
    (∃ w q, s.acceptsNext = some w ∧ decode s.cfg s.tvalid w = some (.rdhtbl q) ∧ t.result = s.halfTableEntry q) ∨
    (∃ rest, s.queue = .reset :: rest ∧ t.result = 0)

/-- R40, R49: only the host writes the operand registers: a step that changes one is the host's write to PREV, or to a half of
ADDR, LEN or PFD, by offset or at REG_BASE + offset, and its whole effect is that write; or it is a reset, which clears
them. -/
def Obligations.OperandsAreWrittenByTheHostOnly : Prop :=
  ∀ s t : State, step s = .next t →
    ¬ (t.prev = s.prev ∧ t.addr = s.addr ∧ t.len = s.len ∧ t.pfd = s.pfd) →
    ∃ rest,
      (s.waiting = none ∧ ∃ off v,
        (off = offPREV ∨ off = offADDR_LO ∨ off = offADDR_HI ∨ off = offLEN_LO ∨ off = offLEN_HI ∨ off = offPFD_LO ∨
          off = offPFD_HI) ∧
        (s.queue = .access (.write off 4 v) :: rest ∨ s.queue = .busWrite (s.cfg.regBase + off) 4 v :: rest) ∧
        t = State.regWrite { s with queue := rest } off v) ∨
      (s.queue = .reset :: rest ∧ t.prev = 0 ∧ t.addr = 0 ∧ t.len = 0 ∧ t.pfd = 0)

/-- R2, R11, R45: no step changes the configuration. That it stands in State is the model's choice
(notes/assumptions/1.md). -/
def Obligations.ConfigurationIsFixed : Prop :=
  ∀ s t : State, step s = .next t → t.cfg = s.cfg

/-- R72: only a store by the host or another agent changes a byte of the buffer memory, and only the byte it names. -/
def Obligations.OnlyStoresChangeTheMemory : Prop :=
  ∀ (s t : State) (x : Nat), s.mem.wf = true → step s = .next t → t.mem.read x ≠ s.mem.read x →
    ∃ who b rest, s.queue = .store who x b :: rest ∧ t.mem.read x = b

/-- R221: a model fault is never cleared by a later step, and a state that holds one is no good final state, nor is any
state after it. -/
def Obligations.ModelFaultsAreNeverCleared : Prop :=
  (∀ s : State, s.modelFaults ≠ [] → ¬ s.goodFinal) ∧
  ∀ s t : State, step s = .next t → s.modelFaults <+: t.modelFaults ∧ (s.modelFaults ≠ [] → ¬ t.goodFinal)

/-- R224: a store by the host or another agent writes its byte and no other; one into [a, a + n) between acceptance and
completion of a CRC or CRCPF records the model fault, and no other does. That it takes effect at once is the model's choice
(notes/assumptions/14.md), and so are the stop at a store to an address outside the buffer memory (notes/assumptions/20.md)
and which byte a read of an overwritten one returns: the memory's or one the stores overwrote, which the model's record
`raced` keeps (notes/assumptions/13.md). The next state is given whole: a store changes nothing else. -/
def Obligations.StoreIntoRunningBufferIsRecorded : Prop :=
  (∀ (s : State) (x : Nat) (b : Byte), s.memRead x = some b → b = s.mem.read x ∨ (x, b) ∈ s.raced) ∧
  ∀ (s : State) (who : Writer) (addr : Nat) (b : Byte) (rest : List Event), s.queue = .store who addr b :: rest →
    (s.waiting = none ∨ (s.busy = true ∧ who = .otherAgent)) →
    (2 ^ s.cfg.aw ≤ addr → step s = .fault (.noSuchBufferAddress addr)) ∧
    (addr < 2 ^ s.cfg.aw → ∃ t, step s = .next t ∧
      (s.mem.wf = true → t.mem.read addr = b ∧ ∀ x, x ≠ addr → t.mem.read x = s.mem.read x) ∧
      ((s.phase = .running ∧ s.a.toNat ≤ addr ∧ addr < s.a.toNat + s.n.toNat) →
        t = { s with
          queue := rest, mem := s.mem.write addr b, raced := (addr, s.mem.read addr) :: s.raced,
          modelFaults := s.modelFaults ++ [.bufferChangedDuringCommand addr] }) ∧
      (¬ (s.phase = .running ∧ s.a.toNat ≤ addr ∧ addr < s.a.toNat + s.n.toNat) →
        t = { s with queue := rest, mem := s.mem.write addr b }))

/-- R115: `chain` reads RESULT and then writes that value to PREV. That the write is the next step is the model's choice
(notes/assumptions/19.md). -/
def Obligations.ChainThreadsTheResult : Prop :=
  ∀ (s : State) (rest : List Event), s.queue = .chain :: rest → s.waiting = none →
    ∃ t, step s = .next t ∧ t.readLog = s.result :: s.readLog ∧ t.prev = s.prev ∧
      step t = .next { s with queue := rest, readLog := s.result :: s.readLog, prev := s.result }

/-- R115, R260: `poll` reads STATUS; while BUSY = 1 the engine steps and the poll is repeated (the step between two reads
is the model's choice, notes/assumptions/19.md). -/
def Obligations.PollRepeatsWhileBusy : Prop :=
  ∀ (s : State) (rest : List Event), s.queue = .poll :: rest → s.waiting = none →
    (s.busy = false → step s = .next { s with queue := rest, readLog := s.status :: s.readLog }) ∧
    (s.busy = true →
      step s = .next { s with queue := .engine :: .poll :: rest, readLog := s.status :: s.readLog } ∧
      step { s with queue := .engine :: .poll :: rest, readLog := s.status :: s.readLog } =
        .next (State.engineStep { s with queue := .poll :: rest, readLog := s.status :: s.readLog }))

/-- R235, R261: once the run has ended, a step changes nothing. That it may step is the model's choice
(notes/assumptions/30.md). -/
def Obligations.FinishedMachineStaysPut : Prop :=
  ∀ s : State, s.finished → step s = .next s

/-- R10, R260: the machine's step is the engine's when an engine step heads the schedule, and when the schedule is empty; a
CMD write that waits for BUSY = 0 holds it up in neither case. The interleaving by a schedule is the model's choice
(notes/assumptions/9.md), and that the engine steps when nothing is left on it its reading of weak fairness
(notes/assumptions/31.md). -/
def Obligations.EngineStepsWhenScheduledOrAlone : Prop :=
  ∀ s : State, (s.waiting = none ∨ s.busy = true) →
    (s.queue = [] → step s = .next s.engineStep) ∧
    ∀ rest, s.queue = .engine :: rest → step s = .next (State.engineStep { s with queue := rest })
end

