-- ==== Sys2Proof/Laws/Fold.lean ====
section
/-! SUPPORT. The bit step is linear over XOR; a value with a zero low byte shifts out; lookups in the built tables
(40_table_builder.md R131, R135). -/

namespace Sys2Proof

@[simp] theorem bitsteps_zero (c : Word) : bitsteps 0 c = c := rfl

@[simp] theorem bitsteps_succ (k : Nat) (c : Word) : bitsteps (k + 1) c = bitsteps k (bitstep c) := rfl

theorem bitsteps_add (j k : Nat) (c : Word) : bitsteps (j + k) c = bitsteps k (bitsteps j c) := by
  induction j generalizing c with
  | zero => simp
  | succ j ih => rw [Nat.succ_add]; simp [ih]

@[simp] theorem bitstep_zero : bitstep 0#32 = 0#32 := by decide

@[simp] theorem bitsteps_of_zero (k : Nat) : bitsteps k 0#32 = 0#32 := by
  induction k with
  | zero => rfl
  | succ k ih => simp [ih]

/-- The bit step as a shift and a conditional XOR of the polynomial. -/
theorem bitstep_eq (c : Word) : bitstep c = (c >>> 1) ^^^ (if c.getLsbD 0 then POLY else 0#32) := by
  unfold bitstep
  split <;> simp

theorem bitstep_xor (x y : Word) : bitstep (x ^^^ y) = bitstep x ^^^ bitstep y := by
  rw [bitstep_eq, bitstep_eq x, bitstep_eq y, BitVec.getLsbD_xor, BitVec.ushiftRight_xor_distrib]
  cases x.getLsbD 0 <;> cases y.getLsbD 0 <;> ext i hi <;> simp <;>
    generalize POLY[i] = q <;> generalize x.getLsbD (1 + i) = u <;> generalize y.getLsbD (1 + i) = v <;>
    revert q u v <;> decide

theorem bitsteps_xor (k : Nat) (x y : Word) : bitsteps k (x ^^^ y) = bitsteps k x ^^^ bitsteps k y := by
  induction k generalizing x y with
  | zero => rfl
  | succ k ih => simp [bitstep_xor, ih]

/-- A value whose low k bits are 0 passes k bit steps as a shift. -/
theorem bitsteps_shift (k : Nat) (c : Word) (h : ∀ i < k, c.getLsbD i = false) : bitsteps k c = c >>> k := by
  induction k generalizing c with
  | zero => simp
  | succ k ih =>
    have h0 : bitstep c = c >>> 1 := by rw [bitstep_eq, h 0 (Nat.succ_pos k)]; simp
    rw [bitsteps_succ, h0, ih, ← BitVec.shiftRight_add, Nat.add_comm]
    intro i hi
    simpa [BitVec.getLsbD_ushiftRight] using h (1 + i) (by omega)

end Sys2Proof
end

