-- ==== Sys2Proof/Laws/Memory.lean ====
section
/-! SUPPORT. The laws of the buffer memory: a read after a write, and the canonical form is kept. -/

namespace Sys2Proof.Machine

/-- What the canonical form says of the first entry and the rest. -/
theorem memory_wf_cons (x : Nat) (v : Byte) (rest : Memory) :
    Memory.wf ((x, v) :: rest) = true ↔ (∀ e ∈ rest, x < e.1) ∧ v ≠ unlistedByte ∧ Memory.wf rest = true := by
  simp [Memory.wf, and_assoc]

theorem memory_read_of_not_listed (m : Memory) (addr : Nat) (h : ∀ e ∈ m, e.1 ≠ addr) :
    m.read addr = unlistedByte := by
  induction m with
  | nil => rfl
  | cons e rest ih =>
    obtain ⟨x, v⟩ := e
    rw [Memory.read, if_neg (h (x, v) (by simp)), ih (fun e he => h e (by simp [he]))]

theorem memory_read_cell_append (addr y : Nat) (b : Byte) (m : Memory) (h : ∀ e ∈ m, e.1 ≠ addr) :
    Memory.read (Memory.cell addr b ++ m) y = if y = addr then b else m.read y := by
  unfold Memory.cell
  split
  · split
    · subst_vars
      simpa using memory_read_of_not_listed m _ h
    · rfl
  · simp only [List.cons_append, List.nil_append, Memory.read]
    split <;> split <;> first | rfl | omega

/-- A read after a write, of any canonical memory. -/
theorem memory_read_write (m : Memory) (hm : m.wf = true) (addr y : Nat) (b : Byte) :
    (m.write addr b).read y = if y = addr then b else m.read y := by
  induction m with
  | nil => simpa [Memory.write] using memory_read_cell_append addr y b [] (by simp)
  | cons e rest ih =>
    obtain ⟨x, v⟩ := e
    obtain ⟨hlt, -, hw⟩ := (memory_wf_cons x v rest).1 hm
    unfold Memory.write
    split
    · rename_i hx
      simp only [Memory.read, ih hw]
      split <;> split <;> first | rfl | omega
    · split
      · rename_i hx
        subst hx
        rw [memory_read_cell_append x y b rest (fun e he => by have := hlt e he; omega)]
        simp only [Memory.read]
        split
        · rfl
        · split <;> first | rfl | omega
      · rename_i h1 h2
        refine memory_read_cell_append addr y b _ ?_
        intro e he
        rcases List.mem_cons.1 he with rfl | he
        · exact h2
        · have := hlt e he
          omega

theorem memory_write_addresses (m : Memory) (addr : Nat) (b : Byte) :
    ∀ e ∈ m.write addr b, e.1 = addr ∨ e ∈ m := by
  induction m with
  | nil =>
    intro e he
    unfold Memory.write Memory.cell at he
    split at he <;> simp at he
    exact .inl (by simp [he])
  | cons f rest ih =>
    obtain ⟨x, v⟩ := f
    intro e he
    unfold Memory.write at he
    split at he
    · rcases List.mem_cons.1 he with rfl | he
      · exact .inr (by simp)
      · exact (ih e he).imp_right (by simp +contextual)
    · split at he <;> rcases List.mem_append.1 he with he | he
      · unfold Memory.cell at he
        split at he <;> simp at he
        exact .inl (by simp [he])
      · exact .inr (by simp [he])
      · unfold Memory.cell at he
        split at he <;> simp at he
        exact .inl (by simp [he])
      · exact .inr he

theorem memory_wf_cell_append (addr : Nat) (b : Byte) (m : Memory) (hm : m.wf = true) (h : ∀ e ∈ m, addr < e.1) :
    Memory.wf (Memory.cell addr b ++ m) = true := by
  unfold Memory.cell
  split
  · simpa using hm
  · rename_i hb
    exact (memory_wf_cons addr b m).2 ⟨h, hb, hm⟩

/-- A write keeps the canonical form. -/
theorem memory_write_wf (m : Memory) (hm : m.wf = true) (addr : Nat) (b : Byte) : (m.write addr b).wf = true := by
  induction m with
  | nil => simpa [Memory.write] using memory_wf_cell_append addr b [] rfl (by simp)
  | cons e rest ih =>
    obtain ⟨x, v⟩ := e
    obtain ⟨hlt, hv, hw⟩ := (memory_wf_cons x v rest).1 hm
    unfold Memory.write
    split
    · rename_i hx
      refine (memory_wf_cons _ _ _).2 ⟨?_, hv, ih hw⟩
      intro e he
      rcases memory_write_addresses rest addr b e he with h | h
      · omega
      · exact hlt e h
    · split
      · rename_i hx
        subst hx
        exact memory_wf_cell_append x b rest hw hlt
      · rename_i h1 h2
        refine memory_wf_cell_append addr b _ hm ?_
        intro e he
        rcases List.mem_cons.1 he with rfl | he
        · simp; omega
        · have := hlt e he
          omega

/-- Two canonical memories that read the same everywhere are equal data. -/
theorem memory_ext (m m' : Memory) (hm : m.wf = true) (hm' : m'.wf = true) (h : ∀ addr, m.read addr = m'.read addr) :
    m = m' := by
  induction m generalizing m' with
  | nil =>
    cases m' with
    | nil => rfl
    | cons e rest =>
      obtain ⟨x, v⟩ := e
      have := h x
      obtain ⟨-, hv, -⟩ := (memory_wf_cons x v rest).1 hm'
      simp [Memory.read] at this
      exact absurd this.symm hv
  | cons e rest ih =>
    obtain ⟨x, v⟩ := e
    obtain ⟨hlt, hv, hw⟩ := (memory_wf_cons x v rest).1 hm
    cases m' with
    | nil =>
      have := h x
      simp [Memory.read] at this
      exact absurd this hv
    | cons e' rest' =>
      obtain ⟨x', v'⟩ := e'
      obtain ⟨hlt', hv', hw'⟩ := (memory_wf_cons x' v' rest').1 hm'
      have absent : ∀ (l : Memory) (y z : Nat), (∀ e ∈ l, y < e.1) → z ≤ y → l.read z = unlistedByte :=
        fun l y z hl hz => memory_read_of_not_listed l z (fun e he => by have := hl e he; omega)
      have hx : x = x' := by
        by_contra hne
        rcases Nat.lt_or_gt_of_ne hne with hl | hl
        · have := h x
          simp only [Memory.read, if_true, if_neg (Ne.symm hne)] at this
          exact hv (this.trans (absent rest' x' x hlt' (by omega)))
        · have := h x'
          simp only [Memory.read, if_true, if_neg hne] at this
          exact hv' (this.symm.trans (absent rest x x' hlt (by omega)))
      subst hx
      have hvv : v = v' := by simpa [Memory.read] using h x
      subst hvv
      rw [ih rest' hw hw' ?_]
      intro addr
      by_cases ha : x = addr
      · subst ha
        rw [absent rest x x hlt (le_refl _), absent rest' x x hlt' (le_refl _)]
      · simpa [Memory.read, ha] using h addr

/-- The bytes of a range depend on that range only. -/
theorem memory_bytes_congr (m m' : Memory) (addr k : Nat) (h : ∀ i < k, m.read (addr + i) = m'.read (addr + i)) :
    m.bytes addr k = m'.bytes addr k := by
  induction k generalizing addr with
  | zero => rfl
  | succ k ih =>
    rw [Memory.bytes, Memory.bytes, ih (addr + 1), ← Nat.add_zero addr, h 0 (by omega)]
    intro i hi
    rw [show addr + 1 + i = addr + (i + 1) by omega]
    exact h (i + 1) (by omega)

theorem memory_bytes_append (m : Memory) (addr j k : Nat) :
    m.bytes addr (j + k) = m.bytes addr j ++ m.bytes (addr + j) k := by
  induction j generalizing addr with
  | zero => simp [Memory.bytes]
  | succ j ih =>
    rw [Nat.succ_add, Memory.bytes, Memory.bytes, ih (addr + 1), List.cons_append]
    congr 3
    omega

@[simp] theorem memory_bytes_length (m : Memory) (addr k : Nat) : (m.bytes addr k).length = k := by
  induction k generalizing addr with
  | zero => rfl
  | succ k ih => simp [Memory.bytes, ih]

end Sys2Proof.Machine
end

