-- ==== Sys2Proof/Laws/State.lean ====
section
/-! SUPPORT. The fields of the machine's state after each of its updates, one lemma for each update, every clause of it a
rewrite rule; the frames of the operations with cases. -/

namespace Sys2Proof.Machine

@[simp] theorem clearErrors_fields (s : State) :
    s.clearErrors.ill = false ∧ s.clearErrors.berr = false ∧ s.clearErrors.cfg = s.cfg ∧
    s.clearErrors.tvalid = s.tvalid ∧ s.clearErrors.prev = s.prev ∧ s.clearErrors.result = s.result ∧
    s.clearErrors.addrLo = s.addrLo ∧ s.clearErrors.addrHi = s.addrHi ∧ s.clearErrors.lenLo = s.lenLo ∧
    s.clearErrors.lenHi = s.lenHi ∧ s.clearErrors.pfdLo = s.pfdLo ∧ s.clearErrors.pfdHi = s.pfdHi ∧
    s.clearErrors.tables = s.tables ∧ s.clearErrors.half = s.half ∧ s.clearErrors.phase = s.phase ∧
    s.clearErrors.c = s.c ∧ s.clearErrors.cur = s.cur ∧ s.clearErrors.rem = s.rem ∧ s.clearErrors.a = s.a ∧
    s.clearErrors.n = s.n ∧ s.clearErrors.p = s.p ∧ s.clearErrors.d = s.d ∧ s.clearErrors.dp = s.dp ∧
    s.clearErrors.pfOn = s.pfOn ∧ s.clearErrors.bk = s.bk ∧ s.clearErrors.bi = s.bi ∧
    s.clearErrors.waiting = s.waiting ∧ s.clearErrors.mem = s.mem ∧ s.clearErrors.modelFaults = s.modelFaults ∧
    s.clearErrors.queue = s.queue ∧ s.clearErrors.readLog = s.readLog ∧ s.clearErrors.reads = s.reads ∧
    s.clearErrors.hints = s.hints ∧ s.clearErrors.raced = s.raced ∧ s.clearErrors.free = s.free := by
  refine ⟨?_, ?_⟩ <;> (repeat' constructor)

/-- The operands after the errors are cleared. -/
@[simp] theorem clearErrors_operands (s : State) :
    s.clearErrors.addr = s.addr ∧ s.clearErrors.len = s.len ∧ s.clearErrors.pfd = s.pfd := by
  refine ⟨?_, ?_, ?_⟩ <;> rfl

@[simp] theorem illegalWord_fields (s : State) :
    s.illegalWord.ill = true ∧ s.illegalWord.berr = false ∧ s.illegalWord.cfg = s.cfg ∧
    s.illegalWord.tvalid = s.tvalid ∧ s.illegalWord.prev = s.prev ∧ s.illegalWord.result = s.result ∧
    s.illegalWord.addrLo = s.addrLo ∧ s.illegalWord.addrHi = s.addrHi ∧ s.illegalWord.lenLo = s.lenLo ∧
    s.illegalWord.lenHi = s.lenHi ∧ s.illegalWord.pfdLo = s.pfdLo ∧ s.illegalWord.pfdHi = s.pfdHi ∧
    s.illegalWord.tables = s.tables ∧ s.illegalWord.half = s.half ∧ s.illegalWord.phase = s.phase ∧
    s.illegalWord.c = s.c ∧ s.illegalWord.cur = s.cur ∧ s.illegalWord.rem = s.rem ∧ s.illegalWord.a = s.a ∧
    s.illegalWord.n = s.n ∧ s.illegalWord.p = s.p ∧ s.illegalWord.d = s.d ∧ s.illegalWord.dp = s.dp ∧
    s.illegalWord.pfOn = s.pfOn ∧ s.illegalWord.bk = s.bk ∧ s.illegalWord.bi = s.bi ∧
    s.illegalWord.waiting = s.waiting ∧ s.illegalWord.mem = s.mem ∧ s.illegalWord.modelFaults = s.modelFaults ∧
    s.illegalWord.queue = s.queue ∧ s.illegalWord.readLog = s.readLog ∧ s.illegalWord.reads = s.reads ∧
    s.illegalWord.hints = s.hints ∧ s.illegalWord.raced = s.raced ∧ s.illegalWord.free = s.free := by
  refine ⟨?_, ?_⟩ <;> (repeat' constructor)

@[simp] theorem rangeError_fields (s : State) :
    s.rangeError.berr = true ∧ s.rangeError.cfg = s.cfg ∧ s.rangeError.tvalid = s.tvalid ∧ s.rangeError.ill = s.ill ∧
    s.rangeError.prev = s.prev ∧ s.rangeError.result = s.result ∧ s.rangeError.addrLo = s.addrLo ∧
    s.rangeError.addrHi = s.addrHi ∧ s.rangeError.lenLo = s.lenLo ∧ s.rangeError.lenHi = s.lenHi ∧
    s.rangeError.pfdLo = s.pfdLo ∧ s.rangeError.pfdHi = s.pfdHi ∧ s.rangeError.tables = s.tables ∧
    s.rangeError.half = s.half ∧ s.rangeError.phase = s.phase ∧ s.rangeError.c = s.c ∧ s.rangeError.cur = s.cur ∧
    s.rangeError.rem = s.rem ∧ s.rangeError.a = s.a ∧ s.rangeError.n = s.n ∧ s.rangeError.p = s.p ∧
    s.rangeError.d = s.d ∧ s.rangeError.dp = s.dp ∧ s.rangeError.pfOn = s.pfOn ∧ s.rangeError.bk = s.bk ∧
    s.rangeError.bi = s.bi ∧ s.rangeError.waiting = s.waiting ∧ s.rangeError.mem = s.mem ∧
    s.rangeError.modelFaults = s.modelFaults ∧ s.rangeError.queue = s.queue ∧ s.rangeError.readLog = s.readLog ∧
    s.rangeError.reads = s.reads ∧ s.rangeError.hints = s.hints ∧ s.rangeError.raced = s.raced ∧
    s.rangeError.free = s.free := by
  refine ⟨?_, ?_⟩ <;> (repeat' constructor)

@[simp] theorem busError_fields (s : State) :
    s.busError.berr = true ∧ s.busError.phase = .idle ∧ s.busError.cfg = s.cfg ∧ s.busError.tvalid = s.tvalid ∧
    s.busError.ill = s.ill ∧ s.busError.prev = s.prev ∧ s.busError.result = s.result ∧ s.busError.addrLo = s.addrLo ∧
    s.busError.addrHi = s.addrHi ∧ s.busError.lenLo = s.lenLo ∧ s.busError.lenHi = s.lenHi ∧
    s.busError.pfdLo = s.pfdLo ∧ s.busError.pfdHi = s.pfdHi ∧ s.busError.tables = s.tables ∧
    s.busError.half = s.half ∧ s.busError.c = s.c ∧ s.busError.cur = s.cur ∧ s.busError.rem = s.rem ∧
    s.busError.a = s.a ∧ s.busError.n = s.n ∧ s.busError.p = s.p ∧ s.busError.d = s.d ∧ s.busError.dp = s.dp ∧
    s.busError.pfOn = s.pfOn ∧ s.busError.bk = s.bk ∧ s.busError.bi = s.bi ∧ s.busError.waiting = s.waiting ∧
    s.busError.mem = s.mem ∧ s.busError.modelFaults = s.modelFaults ∧ s.busError.queue = s.queue ∧
    s.busError.readLog = s.readLog ∧ s.busError.reads = s.reads ∧ s.busError.hints = s.hints ∧
    s.busError.raced = s.raced ∧ s.busError.free = s.free := by
  refine ⟨?_, ?_⟩ <;> (repeat' constructor)

@[simp] theorem logRead_fields (s : State) (v : Word) :
    (s.logRead v).readLog = v :: s.readLog ∧ (s.logRead v).cfg = s.cfg ∧ (s.logRead v).tvalid = s.tvalid ∧
    (s.logRead v).ill = s.ill ∧ (s.logRead v).berr = s.berr ∧ (s.logRead v).prev = s.prev ∧
    (s.logRead v).result = s.result ∧ (s.logRead v).addrLo = s.addrLo ∧ (s.logRead v).addrHi = s.addrHi ∧
    (s.logRead v).lenLo = s.lenLo ∧ (s.logRead v).lenHi = s.lenHi ∧ (s.logRead v).pfdLo = s.pfdLo ∧
    (s.logRead v).pfdHi = s.pfdHi ∧ (s.logRead v).tables = s.tables ∧ (s.logRead v).half = s.half ∧
    (s.logRead v).phase = s.phase ∧ (s.logRead v).c = s.c ∧ (s.logRead v).cur = s.cur ∧ (s.logRead v).rem = s.rem ∧
    (s.logRead v).a = s.a ∧ (s.logRead v).n = s.n ∧ (s.logRead v).p = s.p ∧ (s.logRead v).d = s.d ∧
    (s.logRead v).dp = s.dp ∧ (s.logRead v).pfOn = s.pfOn ∧ (s.logRead v).bk = s.bk ∧ (s.logRead v).bi = s.bi ∧
    (s.logRead v).waiting = s.waiting ∧ (s.logRead v).mem = s.mem ∧ (s.logRead v).modelFaults = s.modelFaults ∧
    (s.logRead v).queue = s.queue ∧ (s.logRead v).reads = s.reads ∧ (s.logRead v).hints = s.hints ∧
    (s.logRead v).raced = s.raced ∧ (s.logRead v).free = s.free := by
  refine ⟨?_, ?_⟩ <;> (repeat' constructor)

@[simp] theorem setTableEntry_fields (s : State) (k b : Nat) (v : Word) :
    (s.setTableEntry k b v).tables = s.tables.set k ((s.tables.getD k []).set b v) ∧
    (s.setTableEntry k b v).cfg = s.cfg ∧ (s.setTableEntry k b v).tvalid = s.tvalid ∧
    (s.setTableEntry k b v).ill = s.ill ∧ (s.setTableEntry k b v).berr = s.berr ∧
    (s.setTableEntry k b v).prev = s.prev ∧ (s.setTableEntry k b v).result = s.result ∧
    (s.setTableEntry k b v).addrLo = s.addrLo ∧ (s.setTableEntry k b v).addrHi = s.addrHi ∧
    (s.setTableEntry k b v).lenLo = s.lenLo ∧ (s.setTableEntry k b v).lenHi = s.lenHi ∧
    (s.setTableEntry k b v).pfdLo = s.pfdLo ∧ (s.setTableEntry k b v).pfdHi = s.pfdHi ∧
    (s.setTableEntry k b v).half = s.half ∧ (s.setTableEntry k b v).phase = s.phase ∧
    (s.setTableEntry k b v).c = s.c ∧ (s.setTableEntry k b v).cur = s.cur ∧ (s.setTableEntry k b v).rem = s.rem ∧
    (s.setTableEntry k b v).a = s.a ∧ (s.setTableEntry k b v).n = s.n ∧ (s.setTableEntry k b v).p = s.p ∧
    (s.setTableEntry k b v).d = s.d ∧ (s.setTableEntry k b v).dp = s.dp ∧ (s.setTableEntry k b v).pfOn = s.pfOn ∧
    (s.setTableEntry k b v).bk = s.bk ∧ (s.setTableEntry k b v).bi = s.bi ∧
    (s.setTableEntry k b v).waiting = s.waiting ∧ (s.setTableEntry k b v).mem = s.mem ∧
    (s.setTableEntry k b v).modelFaults = s.modelFaults ∧ (s.setTableEntry k b v).queue = s.queue ∧
    (s.setTableEntry k b v).readLog = s.readLog ∧ (s.setTableEntry k b v).reads = s.reads ∧
    (s.setTableEntry k b v).hints = s.hints ∧ (s.setTableEntry k b v).raced = s.raced ∧
    (s.setTableEntry k b v).free = s.free := by
  refine ⟨?_, ?_⟩ <;> (repeat' constructor)

@[simp] theorem setHalfEntry_fields (s : State) (q : Nat) (v : Word) :
    (s.setHalfEntry q v).half = s.half.set q v ∧ (s.setHalfEntry q v).cfg = s.cfg ∧
    (s.setHalfEntry q v).tvalid = s.tvalid ∧ (s.setHalfEntry q v).ill = s.ill ∧ (s.setHalfEntry q v).berr = s.berr ∧
    (s.setHalfEntry q v).prev = s.prev ∧ (s.setHalfEntry q v).result = s.result ∧
    (s.setHalfEntry q v).addrLo = s.addrLo ∧ (s.setHalfEntry q v).addrHi = s.addrHi ∧
    (s.setHalfEntry q v).lenLo = s.lenLo ∧ (s.setHalfEntry q v).lenHi = s.lenHi ∧
    (s.setHalfEntry q v).pfdLo = s.pfdLo ∧ (s.setHalfEntry q v).pfdHi = s.pfdHi ∧
    (s.setHalfEntry q v).tables = s.tables ∧ (s.setHalfEntry q v).phase = s.phase ∧ (s.setHalfEntry q v).c = s.c ∧
    (s.setHalfEntry q v).cur = s.cur ∧ (s.setHalfEntry q v).rem = s.rem ∧ (s.setHalfEntry q v).a = s.a ∧
    (s.setHalfEntry q v).n = s.n ∧ (s.setHalfEntry q v).p = s.p ∧ (s.setHalfEntry q v).d = s.d ∧
    (s.setHalfEntry q v).dp = s.dp ∧ (s.setHalfEntry q v).pfOn = s.pfOn ∧ (s.setHalfEntry q v).bk = s.bk ∧
    (s.setHalfEntry q v).bi = s.bi ∧ (s.setHalfEntry q v).waiting = s.waiting ∧ (s.setHalfEntry q v).mem = s.mem ∧
    (s.setHalfEntry q v).modelFaults = s.modelFaults ∧ (s.setHalfEntry q v).queue = s.queue ∧
    (s.setHalfEntry q v).readLog = s.readLog ∧ (s.setHalfEntry q v).reads = s.reads ∧
    (s.setHalfEntry q v).hints = s.hints ∧ (s.setHalfEntry q v).raced = s.raced ∧
    (s.setHalfEntry q v).free = s.free := by
  refine ⟨?_, ?_⟩ <;> (repeat' constructor)

@[simp] theorem endBuild_fields (s : State) :
    s.endBuild.tvalid = true ∧ s.endBuild.phase = .idle ∧ s.endBuild.bk = 0 ∧ s.endBuild.bi = 0 ∧
    s.endBuild.cfg = s.cfg ∧ s.endBuild.ill = s.ill ∧ s.endBuild.berr = s.berr ∧ s.endBuild.prev = s.prev ∧
    s.endBuild.result = s.result ∧ s.endBuild.addrLo = s.addrLo ∧ s.endBuild.addrHi = s.addrHi ∧
    s.endBuild.lenLo = s.lenLo ∧ s.endBuild.lenHi = s.lenHi ∧ s.endBuild.pfdLo = s.pfdLo ∧
    s.endBuild.pfdHi = s.pfdHi ∧ s.endBuild.tables = s.tables ∧ s.endBuild.half = s.half ∧ s.endBuild.c = s.c ∧
    s.endBuild.cur = s.cur ∧ s.endBuild.rem = s.rem ∧ s.endBuild.a = s.a ∧ s.endBuild.n = s.n ∧ s.endBuild.p = s.p ∧
    s.endBuild.d = s.d ∧ s.endBuild.dp = s.dp ∧ s.endBuild.pfOn = s.pfOn ∧ s.endBuild.waiting = s.waiting ∧
    s.endBuild.mem = s.mem ∧ s.endBuild.modelFaults = s.modelFaults ∧ s.endBuild.queue = s.queue ∧
    s.endBuild.readLog = s.readLog ∧ s.endBuild.reads = s.reads ∧ s.endBuild.hints = s.hints ∧
    s.endBuild.raced = s.raced ∧ s.endBuild.free = s.free := by
  refine ⟨?_, ?_⟩ <;> (repeat' constructor)

@[simp] theorem finishBuild_fields (s : State) :
    s.finishBuild.tvalid = true ∧ s.finishBuild.phase = .idle ∧ s.finishBuild.bk = 0 ∧ s.finishBuild.bi = 0 ∧
    s.finishBuild.tables = builtTables s.cfg ∧ s.finishBuild.half = builtHalf s.cfg ∧ s.finishBuild.cfg = s.cfg ∧
    s.finishBuild.ill = s.ill ∧ s.finishBuild.berr = s.berr ∧ s.finishBuild.prev = s.prev ∧
    s.finishBuild.result = s.result ∧ s.finishBuild.addrLo = s.addrLo ∧ s.finishBuild.addrHi = s.addrHi ∧
    s.finishBuild.lenLo = s.lenLo ∧ s.finishBuild.lenHi = s.lenHi ∧ s.finishBuild.pfdLo = s.pfdLo ∧
    s.finishBuild.pfdHi = s.pfdHi ∧ s.finishBuild.c = s.c ∧ s.finishBuild.cur = s.cur ∧ s.finishBuild.rem = s.rem ∧
    s.finishBuild.a = s.a ∧ s.finishBuild.n = s.n ∧ s.finishBuild.p = s.p ∧ s.finishBuild.d = s.d ∧
    s.finishBuild.dp = s.dp ∧ s.finishBuild.pfOn = s.pfOn ∧ s.finishBuild.waiting = s.waiting ∧
    s.finishBuild.mem = s.mem ∧ s.finishBuild.modelFaults = s.modelFaults ∧ s.finishBuild.queue = s.queue ∧
    s.finishBuild.readLog = s.readLog ∧ s.finishBuild.reads = s.reads ∧ s.finishBuild.hints = s.hints ∧
    s.finishBuild.raced = s.raced ∧ s.finishBuild.free = s.free := by
  refine ⟨?_, ?_⟩ <;> (repeat' constructor)

@[simp] theorem portStep_fields (s : State) :
    s.portStep.reads = s.reads ++ s.readsMade s.cur s.stepSize ∧ s.portStep.hints = s.stepHints ++ s.hints ∧
    s.portStep.free = s.free + 1 ∧ s.portStep.cfg = s.cfg ∧ s.portStep.tvalid = s.tvalid ∧ s.portStep.ill = s.ill ∧
    s.portStep.berr = s.berr ∧ s.portStep.prev = s.prev ∧ s.portStep.result = s.result ∧
    s.portStep.addrLo = s.addrLo ∧ s.portStep.addrHi = s.addrHi ∧ s.portStep.lenLo = s.lenLo ∧
    s.portStep.lenHi = s.lenHi ∧ s.portStep.pfdLo = s.pfdLo ∧ s.portStep.pfdHi = s.pfdHi ∧
    s.portStep.tables = s.tables ∧ s.portStep.half = s.half ∧ s.portStep.phase = s.phase ∧ s.portStep.c = s.c ∧
    s.portStep.cur = s.cur ∧ s.portStep.rem = s.rem ∧ s.portStep.a = s.a ∧ s.portStep.n = s.n ∧ s.portStep.p = s.p ∧
    s.portStep.d = s.d ∧ s.portStep.dp = s.dp ∧ s.portStep.pfOn = s.pfOn ∧ s.portStep.bk = s.bk ∧
    s.portStep.bi = s.bi ∧ s.portStep.waiting = s.waiting ∧ s.portStep.mem = s.mem ∧
    s.portStep.modelFaults = s.modelFaults ∧ s.portStep.queue = s.queue ∧ s.portStep.readLog = s.readLog ∧
    s.portStep.raced = s.raced := by
  refine ⟨?_, ?_⟩ <;> (repeat' constructor)

@[simp] theorem complete_fields (s : State) :
    s.complete.result = ~~~ s.c ∧ s.complete.phase = .idle ∧ s.complete.cfg = s.cfg ∧ s.complete.tvalid = s.tvalid ∧
    s.complete.ill = s.ill ∧ s.complete.berr = s.berr ∧ s.complete.prev = s.prev ∧ s.complete.addrLo = s.addrLo ∧
    s.complete.addrHi = s.addrHi ∧ s.complete.lenLo = s.lenLo ∧ s.complete.lenHi = s.lenHi ∧
    s.complete.pfdLo = s.pfdLo ∧ s.complete.pfdHi = s.pfdHi ∧ s.complete.tables = s.tables ∧
    s.complete.half = s.half ∧ s.complete.c = s.c ∧ s.complete.cur = s.cur ∧ s.complete.rem = s.rem ∧
    s.complete.a = s.a ∧ s.complete.n = s.n ∧ s.complete.p = s.p ∧ s.complete.d = s.d ∧ s.complete.dp = s.dp ∧
    s.complete.pfOn = s.pfOn ∧ s.complete.bk = s.bk ∧ s.complete.bi = s.bi ∧ s.complete.waiting = s.waiting ∧
    s.complete.mem = s.mem ∧ s.complete.modelFaults = s.modelFaults ∧ s.complete.queue = s.queue ∧
    s.complete.readLog = s.readLog ∧ s.complete.reads = s.reads ∧ s.complete.hints = s.hints ∧
    s.complete.raced = s.raced ∧ s.complete.free = s.free := by
  refine ⟨?_, ?_⟩ <;> (repeat' constructor)

@[simp] theorem latch_fields (s : State) :
    s.latch.a = s.addr ∧ s.latch.n = s.len ∧ s.latch.p = s.prev ∧ s.latch.pfOn = false ∧ s.latch.reads = [] ∧
    s.latch.hints = [] ∧ s.latch.raced = [] ∧ s.latch.cfg = s.cfg ∧ s.latch.tvalid = s.tvalid ∧ s.latch.ill = s.ill ∧
    s.latch.berr = s.berr ∧ s.latch.prev = s.prev ∧ s.latch.result = s.result ∧ s.latch.addrLo = s.addrLo ∧
    s.latch.addrHi = s.addrHi ∧ s.latch.lenLo = s.lenLo ∧ s.latch.lenHi = s.lenHi ∧ s.latch.pfdLo = s.pfdLo ∧
    s.latch.pfdHi = s.pfdHi ∧ s.latch.tables = s.tables ∧ s.latch.half = s.half ∧ s.latch.phase = s.phase ∧
    s.latch.c = s.c ∧ s.latch.cur = s.cur ∧ s.latch.rem = s.rem ∧ s.latch.d = s.pfd ∧ s.latch.dp = s.dp ∧
    s.latch.bk = s.bk ∧ s.latch.bi = s.bi ∧ s.latch.waiting = s.waiting ∧ s.latch.mem = s.mem ∧
    s.latch.modelFaults = s.modelFaults ∧ s.latch.queue = s.queue ∧ s.latch.readLog = s.readLog ∧
    s.latch.free = s.free := by
  refine ⟨?_, ?_⟩ <;> (repeat' constructor)

@[simp] theorem latchPf_fields (s : State) :
    s.latchPf.a = s.addr ∧ s.latchPf.n = s.len ∧ s.latchPf.p = s.prev ∧ s.latchPf.d = s.pfd ∧ s.latchPf.pfOn = true ∧
    s.latchPf.reads = [] ∧ s.latchPf.hints = [] ∧ s.latchPf.raced = [] ∧ s.latchPf.cfg = s.cfg ∧
    s.latchPf.tvalid = s.tvalid ∧ s.latchPf.ill = s.ill ∧ s.latchPf.berr = s.berr ∧ s.latchPf.prev = s.prev ∧
    s.latchPf.result = s.result ∧ s.latchPf.addrLo = s.addrLo ∧ s.latchPf.addrHi = s.addrHi ∧
    s.latchPf.lenLo = s.lenLo ∧ s.latchPf.lenHi = s.lenHi ∧ s.latchPf.pfdLo = s.pfdLo ∧ s.latchPf.pfdHi = s.pfdHi ∧
    s.latchPf.tables = s.tables ∧ s.latchPf.half = s.half ∧ s.latchPf.phase = s.phase ∧ s.latchPf.c = s.c ∧
    s.latchPf.cur = s.cur ∧ s.latchPf.rem = s.rem ∧ s.latchPf.dp = s.dp ∧ s.latchPf.bk = s.bk ∧ s.latchPf.bi = s.bi ∧
    s.latchPf.waiting = s.waiting ∧ s.latchPf.mem = s.mem ∧ s.latchPf.modelFaults = s.modelFaults ∧
    s.latchPf.queue = s.queue ∧ s.latchPf.readLog = s.readLog ∧ s.latchPf.free = s.free := by
  refine ⟨?_, ?_⟩ <;> (repeat' constructor)

@[simp] theorem withoutPrefetch_fields (s : State) :
    s.withoutPrefetch.d = s.d ∧ s.withoutPrefetch.pfOn = false ∧ s.withoutPrefetch.hints = [] ∧
    s.withoutPrefetch.cfg = s.cfg ∧ s.withoutPrefetch.tvalid = s.tvalid ∧ s.withoutPrefetch.ill = s.ill ∧
    s.withoutPrefetch.berr = s.berr ∧ s.withoutPrefetch.prev = s.prev ∧ s.withoutPrefetch.result = s.result ∧
    s.withoutPrefetch.addrLo = s.addrLo ∧ s.withoutPrefetch.addrHi = s.addrHi ∧ s.withoutPrefetch.lenLo = s.lenLo ∧
    s.withoutPrefetch.lenHi = s.lenHi ∧ s.withoutPrefetch.pfdLo = s.pfdLo ∧ s.withoutPrefetch.pfdHi = s.pfdHi ∧
    s.withoutPrefetch.tables = s.tables ∧ s.withoutPrefetch.half = s.half ∧ s.withoutPrefetch.phase = s.phase ∧
    s.withoutPrefetch.c = s.c ∧ s.withoutPrefetch.cur = s.cur ∧ s.withoutPrefetch.rem = s.rem ∧
    s.withoutPrefetch.a = s.a ∧ s.withoutPrefetch.n = s.n ∧ s.withoutPrefetch.p = s.p ∧ s.withoutPrefetch.dp = s.dp ∧
    s.withoutPrefetch.bk = s.bk ∧ s.withoutPrefetch.bi = s.bi ∧ s.withoutPrefetch.waiting = s.waiting ∧
    s.withoutPrefetch.mem = s.mem ∧ s.withoutPrefetch.modelFaults = s.modelFaults ∧
    s.withoutPrefetch.queue = s.queue ∧ s.withoutPrefetch.readLog = s.readLog ∧ s.withoutPrefetch.reads = s.reads ∧
    s.withoutPrefetch.raced = s.raced ∧ s.withoutPrefetch.free = s.free := by
  refine ⟨?_, ?_⟩ <;> (repeat' constructor)

end Sys2Proof.Machine
end

