-- ==== Sys2Proof/Laws/Engine.lean ====
section
/-! SUPPORT. What the reads, the table lookups and one engine step can do, said once (20_memory.md R73,
40_table_builder.md R136, 41_checksum.md R168 to R176). -/

namespace Sys2Proof.Machine

/-! ## Reads -/

/-- With no byte overwritten since acceptance the memory port shows the memory. -/
theorem portByte_of_not_raced (s : State) (h : s.raced = []) (addr : Nat) : s.portByte addr = s.mem.read addr := by
  simp [State.portByte, overwritten, h]

/-- A group whose bytes all answer, none of them overwritten since acceptance, is read from the memory. -/
theorem readGroup_of_answers (s : State) (h : s.raced = []) (addr k : Nat) (ok : bufferAnswers s.cfg addr k) :
    s.readGroup addr k = some (s.mem.bytes addr k) := by
  induction k generalizing addr with
  | zero => rfl
  | succ k ih =>
    have h0 : s.cfg.memOk addr = true := ok 0 (by omega)
    have h1 : bufferAnswers s.cfg (addr + 1) k := fun i hi => by
      simpa [Nat.add_assoc, Nat.add_comm 1 i] using ok (i + 1) (by omega)
    simp [State.readGroup, State.memRead, h0, ih (addr + 1) h1, portByte_of_not_raced s h, Memory.bytes]

/-- A group is read if and only if all its bytes answer. -/
theorem readGroup_isSome (s : State) (addr k : Nat) :
    (s.readGroup addr k).isSome = true ↔ bufferAnswers s.cfg addr k := by
  induction k generalizing addr with
  | zero => simp [State.readGroup, bufferAnswers]
  | succ k ih =>
    have split : bufferAnswers s.cfg addr (k + 1) ↔ s.cfg.memOk addr = true ∧ bufferAnswers s.cfg (addr + 1) k := by
      constructor
      · intro h
        exact ⟨h 0 (by omega), fun i hi => by simpa [Nat.add_assoc, Nat.add_comm 1 i] using h (i + 1) (by omega)⟩
      · rintro ⟨h0, h1⟩ i hi
        cases i with
        | zero => exact h0
        | succ i => simpa [Nat.add_assoc, Nat.add_comm 1 i] using h1 i (by omega)
    rw [split, ← ih (addr + 1), State.readGroup, State.memRead]
    cases s.cfg.memOk addr
    · simp
    · simp only [if_true, true_and]
      cases s.readGroup (addr + 1) k <;> simp

theorem readGroup_length (s : State) (addr k : Nat) (bs : List Byte) (h : s.readGroup addr k = some bs) :
    bs.length = k := by
  induction k generalizing addr bs with
  | zero =>
    cases h
    rfl
  | succ k ih =>
    unfold State.readGroup at h
    split at h
    · cases h
    · split at h
      · cases h
      · cases h
        simp [ih _ _ ‹_›]

/-- The addresses put on the port are consecutive, at most the group's. -/
theorem readsMade_eq (s : State) (addr k : Nat) :
    ∃ j ≤ k, s.readsMade addr k = List.range' addr j := by
  induction k generalizing addr with
  | zero => exact ⟨0, le_refl _, rfl⟩
  | succ k ih =>
    obtain ⟨j, hj, h⟩ := ih (addr + 1)
    unfold State.readsMade
    split
    · exact ⟨j + 1, by omega, by rw [h, List.range'_succ]⟩
    · exact ⟨1, by omega, rfl⟩

/-- All of the group's addresses are put on the port when all answer. -/
theorem readsMade_of_answers (s : State) (addr k : Nat) (ok : bufferAnswers s.cfg addr k) :
    s.readsMade addr k = List.range' addr k := by
  induction k generalizing addr with
  | zero => rfl
  | succ k ih =>
    have h0 : s.cfg.memOk addr = true := ok 0 (by omega)
    have h1 : bufferAnswers s.cfg (addr + 1) k := fun i hi => by
      simpa [Nat.add_assoc, Nat.add_comm 1 i] using ok (i + 1) (by omega)
    simp [State.readsMade, h0, ih (addr + 1) h1, List.range'_succ]

/-! ## Table lookups -/

theorem tableEntry_built (s : State) (h : s.tables = builtTables s.cfg) (k : Nat) (hk : k < s.cfg.strategy.nslices)
    (b : Byte) : s.tableEntry k b = sliceEntry k b := by
  have hb := b.isLt
  simp [State.tableEntry, h, builtTables, List.getD, hk, hb]

theorem halfTableEntry_built (s : State) (h : s.half = builtHalf s.cfg) (hh : s.cfg.strategy.hasHalf = true)
    (q : Nibble) : s.halfTableEntry q = halfEntry q := by
  have hq := q.isLt
  simp [State.halfTableEntry, h, builtHalf, hh, List.getD, hq]

/-- Slice tables of the right shape are told apart by their entries. -/
theorem tables_ext (cfg : Config) (t : List (List Word)) (hl : t.length = cfg.strategy.nslices)
    (hr : ∀ row ∈ t, row.length = 256)
    (h : ∀ k < cfg.strategy.nslices, ∀ b < 256, (t.getD k []).getD b 0 = sliceEntry k (BitVec.ofNat 8 b)) :
    t = builtTables cfg := by
  apply List.ext_getElem
  · simp [builtTables, hl]
  · intro k h1 h2
    apply List.ext_getElem
    · simp [builtTables, hr _ (List.getElem_mem h1)]
    · intro b h3 h4
      have hb : b < 256 := by rwa [hr _ (List.getElem_mem h1)] at h3
      have := h k (by omega) b hb
      simpa [builtTables, List.getD, h1, h3] using this

theorem half_ext (cfg : Config) (t : List Word) (hl : t.length = if cfg.strategy.hasHalf then 16 else 0)
    (h : cfg.strategy.hasHalf = true → ∀ q < 16, t.getD q 0 = halfEntry (BitVec.ofNat 4 q)) : t = builtHalf cfg := by
  unfold builtHalf
  split
  · rename_i hh
    rw [if_pos hh] at hl
    apply List.ext_getElem
    · simp [hl]
    · intro q h1 h2
      have := h hh q (by omega)
      simpa [List.getD, h1] using this
  · rename_i hh
    rw [if_neg hh] at hl
    exact List.length_eq_zero_iff.1 hl

/-- The lookup of one entry after the builder has written one. -/
theorem tableEntry_setTableEntry (s : State) (k b : Nat) (v : Word) (k' : Nat) (b' : Byte)
    (hk : k < s.tables.length) (hb : b < (s.tables.getD k []).length) :
    (s.setTableEntry k b v).tableEntry k' b' = if k' = k ∧ b'.toNat = b then v else s.tableEntry k' b' := by
  simp only [State.tableEntry, State.setTableEntry, List.getD, List.getElem?_set]
  by_cases h : k = k'
  · subst h
    simp only [hk, if_true, Option.getD_some, List.getElem?_set, List.getD] at hb ⊢
    by_cases h' : b'.toNat = b
    · subst h'
      simp [hb]
    · rw [if_neg (Ne.symm h'), if_neg (fun e => h' e.2)]
  · simp [h, Ne.symm h]

theorem halfTableEntry_setHalfEntry (s : State) (q : Nat) (v : Word) (q' : Nibble) (hq : q < s.half.length) :
    (s.setHalfEntry q v).halfTableEntry q' = if q'.toNat = q then v else s.halfTableEntry q' := by
  simp only [State.halfTableEntry, State.setHalfEntry, List.getD, List.getElem?_set]
  by_cases h : q'.toNat = q
  · subst h
    simp [hq]
  · rw [if_neg (Ne.symm h), if_neg h]

/-! ## One engine step -/

/-- Every case of one engine step. -/
theorem engineStep_cases (s : State) :
    (s.phase = .idle ∧ s.engineStep = s) ∨
    (s.phase = .building ∧ s.engineStep = s.buildStep) ∨
    (s.phase = .running ∧ s.rem = 0 ∧ s.engineStep = s.complete) ∨
    (s.phase = .running ∧ s.rem ≠ 0 ∧ s.readGroup s.cur s.stepSize = none ∧ s.engineStep = s.portStep.busError) ∨
    (∃ ds, s.phase = .running ∧ s.rem ≠ 0 ∧ s.readGroup s.cur s.stepSize = some ds ∧
      s.engineStep =
        { s.portStep with c := s.foldBytes ds, cur := s.cur + s.stepSize, rem := s.rem - s.stepSize }) := by
  unfold State.engineStep
  cases hp : s.phase with
  | idle => simp
  | building => simp
  | running =>
    by_cases hr : s.rem = 0
    · simp [hr]
    · cases hg : s.readGroup s.cur s.stepSize <;> simp [hr, State.datapathStep, hg]

/-- Every case of one step of the build phase. -/
theorem buildStep_cases (s : State) :
    (s.bk < s.cfg.strategy.nslices ∧ s.bi < 255 ∧ s.buildStep =
      { s.setTableEntry s.bk s.bi (s.builderValue s.bk (BitVec.ofNat 8 s.bi)) with bi := s.bi + 1 }) ∨
    (s.bk < s.cfg.strategy.nslices ∧ 255 ≤ s.bi ∧
      (s.bk + 1 < s.cfg.strategy.nslices ∨ s.cfg.strategy.hasHalf = true) ∧ s.buildStep =
      { s.setTableEntry s.bk s.bi (s.builderValue s.bk (BitVec.ofNat 8 s.bi)) with bk := s.bk + 1, bi := 0 }) ∨
    (s.bk < s.cfg.strategy.nslices ∧ 255 ≤ s.bi ∧ s.cfg.strategy.nslices ≤ s.bk + 1 ∧
      s.cfg.strategy.hasHalf = false ∧
      s.buildStep = (s.setTableEntry s.bk s.bi (s.builderValue s.bk (BitVec.ofNat 8 s.bi))).endBuild) ∨
    (s.cfg.strategy.nslices ≤ s.bk ∧ s.cfg.strategy.hasHalf = true ∧ s.bi < 15 ∧ s.buildStep =
      { s.setHalfEntry s.bi (halfEntry (BitVec.ofNat 4 s.bi)) with bi := s.bi + 1 }) ∨
    (s.cfg.strategy.nslices ≤ s.bk ∧ s.cfg.strategy.hasHalf = true ∧ 15 ≤ s.bi ∧
      s.buildStep = (s.setHalfEntry s.bi (halfEntry (BitVec.ofNat 4 s.bi))).endBuild) ∨
    (s.cfg.strategy.nslices ≤ s.bk ∧ s.cfg.strategy.hasHalf = false ∧ s.buildStep = s.endBuild) := by
  unfold State.buildStep
  by_cases h1 : s.bk < s.cfg.strategy.nslices
  · by_cases h2 : s.bi < 255
    · exact .inl ⟨h1, h2, by simp [h1, h2]⟩
    · by_cases h3 : s.bk + 1 < s.cfg.strategy.nslices ∨ s.cfg.strategy.hasHalf = true
      · exact .inr (.inl ⟨h1, by omega, h3, by simp only [h1, if_true, h2, if_false, h3]⟩)
      · refine .inr (.inr (.inl ⟨h1, by omega, ?_, ?_, by simp only [h1, if_true, h2, if_false, h3]⟩))
        · omega
        · simpa using fun h => h3 (.inr h)
  · cases h2 : s.cfg.strategy.hasHalf
    · exact .inr (.inr (.inr (.inr (.inr ⟨by omega, rfl, by simp [h1]⟩))))
    · by_cases h3 : s.bi < 15
      · exact .inr (.inr (.inr (.inl ⟨by omega, rfl, h3, by simp [h1, h3]⟩)))
      · exact .inr (.inr (.inr (.inr (.inl ⟨by omega, rfl, by omega, by simp [h1, h3]⟩))))

/-- What no step of the build phase changes. -/
theorem buildStep_frame (s : State) :
    s.buildStep.cfg = s.cfg ∧ s.buildStep.ill = s.ill ∧ s.buildStep.berr = s.berr ∧ s.buildStep.prev = s.prev ∧
    s.buildStep.result = s.result ∧ s.buildStep.addrLo = s.addrLo ∧ s.buildStep.addrHi = s.addrHi ∧
    s.buildStep.lenLo = s.lenLo ∧ s.buildStep.lenHi = s.lenHi ∧ s.buildStep.pfdLo = s.pfdLo ∧
    s.buildStep.pfdHi = s.pfdHi ∧ s.buildStep.c = s.c ∧ s.buildStep.cur = s.cur ∧ s.buildStep.rem = s.rem ∧
    s.buildStep.a = s.a ∧ s.buildStep.n = s.n ∧ s.buildStep.p = s.p ∧ s.buildStep.d = s.d ∧
    s.buildStep.dp = s.dp ∧ s.buildStep.pfOn = s.pfOn ∧ s.buildStep.waiting = s.waiting ∧
    s.buildStep.mem = s.mem ∧ s.buildStep.modelFaults = s.modelFaults ∧ s.buildStep.queue = s.queue ∧
    s.buildStep.readLog = s.readLog ∧ s.buildStep.reads = s.reads ∧ s.buildStep.hints = s.hints ∧
    s.buildStep.raced = s.raced ∧ s.buildStep.free = s.free := by
  rcases buildStep_cases s with ⟨_, _, h⟩ | ⟨_, _, _, h⟩ | ⟨_, _, _, _, h⟩ | ⟨_, _, _, h⟩ | ⟨_, _, _, h⟩ |
    ⟨_, _, h⟩ <;> rw [h] <;> simp

/-- What no engine step changes: the configuration, ILL, the operand registers, the latches, the buffer memory, the
schedule and what the host has. -/
theorem engineStep_frame (s : State) :
    s.engineStep.cfg = s.cfg ∧ s.engineStep.ill = s.ill ∧ s.engineStep.prev = s.prev ∧
    s.engineStep.addrLo = s.addrLo ∧ s.engineStep.addrHi = s.addrHi ∧
    s.engineStep.lenLo = s.lenLo ∧ s.engineStep.lenHi = s.lenHi ∧ s.engineStep.pfdLo = s.pfdLo ∧
    s.engineStep.pfdHi = s.pfdHi ∧ s.engineStep.a = s.a ∧ s.engineStep.n = s.n ∧ s.engineStep.p = s.p ∧
    s.engineStep.d = s.d ∧ s.engineStep.dp = s.dp ∧ s.engineStep.pfOn = s.pfOn ∧
    s.engineStep.waiting = s.waiting ∧ s.engineStep.mem = s.mem ∧ s.engineStep.modelFaults = s.modelFaults ∧
    s.engineStep.queue = s.queue ∧ s.engineStep.readLog = s.readLog ∧ s.engineStep.raced = s.raced := by
  rcases engineStep_cases s with ⟨_, h⟩ | ⟨_, h⟩ | ⟨_, _, h⟩ | ⟨_, _, _, h⟩ | ⟨_, _, _, _, h⟩ <;> rw [h]
  · simp
  · have := buildStep_frame s
    simp [this]
  · simp
  · simp
  · simp

end Sys2Proof.Machine
end

