-- ==== Sys2Proof/Laws/Operands.lean ====
section
/-! SUPPORT. The hardwired bits of ADDR (10_state.md R42) and the blank tables, bit by bit and entry by entry. -/

namespace Sys2Proof.Machine

theorem addrMask_getLsbD (cfg : Config) (i : Nat) : (addrMask cfg).getLsbD i = (decide (i < 64) && decide (i < cfg.aw)) := by
  rw [addrMask, BitVec.getLsbD_ofNat, Nat.testBit_two_pow_sub_one]

theorem addrMaskLo_getLsbD (cfg : Config) (i : Nat) :
    (addrMaskLo cfg).getLsbD i = (decide (i < 32) && decide (i < cfg.aw)) := by
  rw [addrMaskLo, BitVec.getLsbD_extractLsb', addrMask_getLsbD, Nat.zero_add]
  by_cases h : i < 32 <;> simp [h]
  omega

theorem addrMaskHi_getLsbD (cfg : Config) (i : Nat) :
    (addrMaskHi cfg).getLsbD i = (decide (i < 32) && decide (32 + i < cfg.aw)) := by
  rw [addrMaskHi, BitVec.getLsbD_extractLsb', addrMask_getLsbD]
  by_cases h : i < 32 <;> simp [h]
  omega

theorem blankTables_length (cfg : Config) : (blankTables cfg).length = cfg.strategy.nslices := List.length_replicate

theorem blankTables_rows (cfg : Config) : ∀ row ∈ blankTables cfg, row.length = 256 := by
  intro row h
  rw [List.eq_of_mem_replicate h]
  exact List.length_replicate

theorem blankHalf_length (cfg : Config) : (blankHalf cfg).length = if cfg.strategy.hasHalf then 16 else 0 := by
  unfold blankHalf
  split
  · exact List.length_replicate
  · rfl

theorem builtTables_length (cfg : Config) : (builtTables cfg).length = cfg.strategy.nslices := by
  simp [builtTables]

theorem builtTables_rows (cfg : Config) : ∀ row ∈ builtTables cfg, row.length = 256 := by
  simp +contextual [builtTables]

theorem builtHalf_length (cfg : Config) : (builtHalf cfg).length = if cfg.strategy.hasHalf then 16 else 0 := by
  unfold builtHalf
  split <;> simp

end Sys2Proof.Machine
end

