-- ==== Sys2Proof/Laws/PerInstr.lean ====
section
/-! SUPPORT. One statement for each instruction as syntax: the fields of the word it is encoded in (30_encoding.md R100,
R104 to R108). -/

namespace Sys2Proof.Laws.ReservedZero

/-- The operation code of a command (R103). -/
def opcode : Instr → Nibble
  | .nop => 0x0
  | .build => 0x1
  | .crc => 0x2
  | .crcpf => 0x3
  | .rdtbl _ _ => 0x4
  | .rdhtbl _ => 0x4

/-- The word of the instruction holds its operation code, and zeros in RSV0 and RSV1. -/
def Statement (i : Instr) : Prop :=
  opField (encode i) = opcode i ∧ rsv0Field (encode i) = 0 ∧ rsv1Field (encode i) = 0

theorem nop : Statement .nop := by
  refine ⟨?_, ?_, ?_⟩ <;> decide

theorem build : Statement .build := by
  refine ⟨?_, ?_, ?_⟩ <;> decide

theorem crc : Statement .crc := by
  refine ⟨?_, ?_, ?_⟩ <;> decide

theorem crcpf : Statement .crcpf := by
  refine ⟨?_, ?_, ?_⟩ <;> decide

theorem rdtbl (k : Nibble) (b : Byte) : Statement (.rdtbl k b) := by
  revert k b
  unfold Statement
  decide +kernel

theorem rdhtbl (q : Nibble) : Statement (.rdhtbl q) := by
  revert q
  unfold Statement
  decide +kernel

end Sys2Proof.Laws.ReservedZero
end

