-- ==== Sys2Proof/Laws/Step.lean ====
section
/-! SUPPORT. What a step of the machine can do, said once: the cases of a step, of an event, of an acceptance and of a
command, and the frames of the operations they use. -/

namespace Sys2Proof.Machine

/-! ## Operations with cases -/

/-- A register write changes one operand register, or nothing. -/
theorem regWrite_cases (s : State) (off : Nat) (v : Word) :
    (off = offPREV ∧ s.regWrite off v = { s with prev := v }) ∨
    (off = offADDR_LO ∧ s.regWrite off v = { s with addrLo := v &&& addrMaskLo s.cfg }) ∨
    (off = offADDR_HI ∧ s.regWrite off v = { s with addrHi := v &&& addrMaskHi s.cfg }) ∨
    (off = offLEN_LO ∧ s.regWrite off v = { s with lenLo := v }) ∨
    (off = offLEN_HI ∧ s.regWrite off v = { s with lenHi := v }) ∨
    (off = offPFD_LO ∧ s.regWrite off v = { s with pfdLo := v }) ∨
    (off = offPFD_HI ∧ s.regWrite off v = { s with pfdHi := v }) ∨
    s.regWrite off v = s := by
  unfold State.regWrite
  repeat' split
  all_goals simp [*]

/-- A store records the model fault when it hits the buffer of a running command, and writes the memory. -/
theorem storeByte_cases (s : State) (addr : Nat) (b : Byte) :
    ((s.phase = .running ∧ s.a.toNat ≤ addr ∧ addr < s.a.toNat + s.n.toNat) ∧ s.storeByte addr b =
      { s with
        mem := s.mem.write addr b
        raced := (addr, s.mem.read addr) :: s.raced
        modelFaults := s.modelFaults ++ [.bufferChangedDuringCommand addr] }) ∨
    (¬ (s.phase = .running ∧ s.a.toNat ≤ addr ∧ addr < s.a.toNat + s.n.toNat) ∧
      s.storeByte addr b = { s with mem := s.mem.write addr b }) := by
  unfold State.storeByte
  split
  · exact .inl ⟨‹_›, rfl⟩
  · exact .inr ⟨‹_›, rfl⟩

/-- What follows the latching: the run begins, or the range error is raised. -/
theorem startFold_cases (s : State) :
    (s.a.toNat + s.n.toNat ≤ s.cfg.space ∧ s.startFold =
      { s with c := ~~~ s.p, dp := s.selected, cur := s.a.toNat, rem := s.n.toNat, phase := .running }) ∨
    (s.cfg.space < s.a.toNat + s.n.toNat ∧ s.startFold = s.rangeError) := by
  unfold State.startFold State.rangeOk
  by_cases h : s.a.toNat + s.n.toNat ≤ s.cfg.space
  · exact .inl ⟨h, by simp [h]⟩
  · exact .inr ⟨by omega, by simp [h]⟩

/-! ## Commands -/

/-- Every case of the acceptance step of a command. -/
theorem exec_cases (i : Instr) (s : State) :
    (i = .nop ∧ exec i s = .next s.clearErrors) ∨
    (i = .build ∧ s.cfg.builds = true ∧
      exec i s = .next { s.clearErrors with tvalid := false, phase := .building, bk := 0, bi := 0 }) ∨
    (i = .build ∧ s.cfg.builds = false ∧ exec i s = .next s.clearErrors) ∨
    (i = .crc ∧ exec i s = .next s.clearErrors.latch.startFold) ∨
    (i = .crcpf ∧ exec i s = .next s.clearErrors.latchPf.startFold) ∨
    (∃ v, i.wellFormed s.cfg s.tvalid = true ∧ exec i s = .next { s.clearErrors with result := v }) ∨
    (i.wellFormed s.cfg s.tvalid = false ∧ exec i s = .next s.illegalWord) := by
  cases i with
  | nop => simp [exec, execNop]
  | build => cases h : s.cfg.builds <;> simp [exec, execBuild, h]
  | crc => simp [exec, execCrc]
  | crcpf => simp [exec, execCrcpf]
  | rdtbl k b => cases h : s.cfg.sliceReadable s.tvalid k <;> simp [exec, execRdtbl, h, Instr.wellFormed]
  | rdhtbl q => cases h : s.cfg.halfReadable s.tvalid <;> simp [exec, execRdhtbl, h, Instr.wellFormed]

/-- An accepted word runs the command it encodes, or is ILLEGAL. -/
theorem accept_cases (w : Word) (s : State) :
    (∃ i, decodeWord w = .ok i ∧ accept w s = exec i s) ∨
    (∃ e, decodeWord w = .error e ∧ accept w s = .next s.illegalWord) := by
  unfold accept
  cases h : decodeWord w with
  | ok i => exact .inl ⟨i, rfl, rfl⟩
  | error e => exact .inr ⟨e, rfl, rfl⟩

/-! ## Events and steps -/

theorem hostRead_next {off width : Nat} {s t : State} (h : hostRead off width s = .next t) :
    admitted off width = true ∧ t = s.logRead (s.regRead off) := by
  unfold hostRead at h
  split at h
  · cases h
    exact ⟨‹_›, rfl⟩
  · cases h

theorem hostWrite_next {off width : Nat} {v : Word} {s t : State} (h : hostWrite off width v s = .next t) :
    admitted off width = true ∧
    ((off ≠ offCMD ∧ t = s.regWrite off v) ∨
     (off = offCMD ∧ s.busy = true ∧ t = { s with waiting := some v }) ∨
     (off = offCMD ∧ s.busy = false ∧ accept v s = .next t)) := by
  unfold hostWrite at h
  split at h
  · refine ⟨‹_›, ?_⟩
    split at h
    · unfold issue at h
      split at h
      · cases h
        exact .inr (.inl ⟨‹_›, ‹_›, rfl⟩)
      · exact .inr (.inr ⟨‹_›, by simpa using ‹¬ s.busy = true›, h⟩)
    · cases h
      exact .inl ⟨‹_›, rfl⟩
  · cases h

/-- The event is the host's 32-bit write of `v` to the register at `off`, by offset or by system address (R15, R31). -/
def Event.IsRegWrite (cfg : Config) (off : Nat) (v : Word) (e : Event) : Prop :=
  e = .access (.write off 4 v) ∨ e = .busWrite (cfg.regBase + off) 4 v

theorem Event.IsRegWrite.isHostAccess {cfg : Config} {off : Nat} {v : Word} {e : Event}
    (h : e.IsRegWrite cfg off v) : e.isHostAccess = true := by
  rcases h with rfl | rfl <;> rfl

/-- An address in the window is REG_BASE and its offset (R15). -/
theorem windowOffset_some {cfg : Config} {addr off : Nat} (h : cfg.windowOffset addr = some off) :
    addr = cfg.regBase + off := by
  unfold Config.windowOffset at h
  split at h
  · cases h
    omega
  · cases h

/-- Every case of an event that answers a next state. -/
theorem perform_cases {e : Event} {s t : State} (h : perform e s = .next t) :
    (∃ v, e.isHostAccess = true ∧ t = s.logRead v) ∨
    (e = .poll ∧ s.busy = true ∧ t = { s.logRead s.status with queue := .engine :: .poll :: s.queue }) ∨
    (e = .chain ∧ t = { s.logRead s.result with queue := .access (.write offPREV 4 s.result) :: s.queue }) ∨
    (∃ off v, e.IsRegWrite s.cfg off v ∧ off ≠ offCMD ∧ t = s.regWrite off v) ∨
    (∃ v, e.IsRegWrite s.cfg offCMD v ∧ s.busy = true ∧ t = { s with waiting := some v }) ∨
    (∃ v, e.IsRegWrite s.cfg offCMD v ∧ s.busy = false ∧ accept v s = .next t) ∨
    (∃ who addr b, e = .store who addr b ∧ addr < s.cfg.space ∧ t = s.storeByte addr b) ∨
    (e = .engine ∧ t = s.engineStep) ∨
    (e = .reset ∧ t = s.hardReset) := by
  have ofWrite : ∀ {off width : Nat} {v : Word}, (width = 4 → e.IsRegWrite s.cfg off v) →
      hostWrite off width v s = .next t →
      (∃ off v, e.IsRegWrite s.cfg off v ∧ off ≠ offCMD ∧ t = s.regWrite off v) ∨
      (∃ v, e.IsRegWrite s.cfg offCMD v ∧ s.busy = true ∧ t = { s with waiting := some v }) ∨
      (∃ v, e.IsRegWrite s.cfg offCMD v ∧ s.busy = false ∧ accept v s = .next t) := by
    intro off width v he hw
    have ⟨ha, hc⟩ := hostWrite_next hw
    have he := he (by simp [admitted] at ha; omega)
    rcases hc with ⟨h1, h2⟩ | ⟨rfl, h1, h2⟩ | ⟨rfl, h1, h2⟩
    · exact .inl ⟨off, v, he, h1, h2⟩
    · exact .inr (.inl ⟨v, he, h1, h2⟩)
    · exact .inr (.inr ⟨v, he, h1, h2⟩)
  cases e with
  | access x =>
    cases x with
    | read off width => exact .inl ⟨_, rfl, (hostRead_next h).2⟩
    | write off width v =>
      rcases ofWrite (fun hw => .inl (by rw [hw])) h with h | h | h
      · exact .inr (.inr (.inr (.inl h)))
      · exact .inr (.inr (.inr (.inr (.inl h))))
      · exact .inr (.inr (.inr (.inr (.inr (.inl h)))))
  | busRead addr width =>
    simp only [perform] at h
    split at h
    · exact .inl ⟨_, rfl, (hostRead_next h).2⟩
    · cases h
  | busWrite addr width v =>
    simp only [perform] at h
    split at h
    · rename_i off ho
      rcases ofWrite (fun hw => .inr (by rw [hw, windowOffset_some ho])) h with h | h | h
      · exact .inr (.inr (.inr (.inl h)))
      · exact .inr (.inr (.inr (.inr (.inl h))))
      · exact .inr (.inr (.inr (.inr (.inr (.inl h)))))
    · cases h
  | poll =>
    simp only [perform, hostPoll] at h
    split at h
    · cases h
      exact .inr (.inl ⟨rfl, ‹_›, rfl⟩)
    · cases h
      exact .inl ⟨_, rfl, rfl⟩
  | chain =>
    cases h
    exact .inr (.inr (.inl ⟨rfl, rfl⟩))
  | store who addr b =>
    simp only [perform] at h
    split at h
    · cases h
      simp_all
    · cases h
  | engine =>
    cases h
    simp
  | reset =>
    cases h
    simp

/-- Every case of a step that answers a next state: the engine steps, a waiting CMD write is accepted, or the next event
of the schedule is performed. -/
theorem step_cases {s t : State} (h : step s = .next t) :
    (s.queue = [] ∧ (s.waiting = none ∨ s.busy = true) ∧ t = s.engineStep) ∨
    (∃ e rest, s.queue = e :: rest ∧ s.waiting ≠ none ∧ s.busy = true ∧ e.isHostAccess = true ∧
      t = s.engineStep) ∨
    (∃ w, s.waiting = some w ∧ s.busy = false ∧ accept w { s with waiting := none } = .next t) ∨
    (∃ e rest, s.queue = e :: rest ∧ (s.waiting = none ∨ (s.busy = true ∧ e.isHostAccess = false)) ∧
      perform e { s with queue := rest } = .next t) := by
  unfold step advance at h
  split at h
  · rename_i hw
    unfold advanceQueue at h
    split at h
    · cases h
      exact .inl ⟨‹_›, .inl hw, rfl⟩
    · exact .inr (.inr (.inr ⟨_, _, ‹_›, .inl hw, h⟩))
  · rename_i w hw
    split at h
    · rename_i hb
      unfold advanceBlocked at h
      split at h
      · cases h
        exact .inl ⟨‹_›, .inr hb, rfl⟩
      · split at h
        · cases h
          exact .inr (.inl ⟨_, _, ‹_›, by simp [hw], hb, ‹_›, rfl⟩)
        · rename_i he
          exact .inr (.inr (.inr ⟨_, _, ‹_›, .inr ⟨hb, by simpa using he⟩, h⟩))
    · rename_i hb
      exact .inr (.inr (.inl ⟨w, hw, by simpa using hb, h⟩))

/-! ## The engine's present work ends -/

theorem engineSteps_frame (k : Nat) (s : State) :
    (State.engineSteps k s).cfg = s.cfg ∧ (State.engineSteps k s).mem = s.mem ∧
    (State.engineSteps k s).queue = s.queue ∧ (State.engineSteps k s).waiting = s.waiting := by
  induction k generalizing s with
  | zero => simp [State.engineSteps]
  | succ k ih =>
    have := engineStep_frame s
    simp [State.engineSteps, ih, this]

theorem engineSteps_of_idle (k : Nat) (s : State) (h : s.phase = .idle) : State.engineSteps k s = s := by
  induction k with
  | zero => rfl
  | succ k ih => rw [State.engineSteps, show s.engineStep = s by simp [State.engineStep, h], ih]

theorem stepSize_le (s : State) (h : s.rem ≠ 0) : 1 ≤ s.stepSize ∧ s.stepSize ≤ s.rem := by
  have : 1 ≤ s.dp.groupSize := by cases s.dp <;> decide
  unfold State.stepSize
  split <;> omega

/-- A running command ends within rem + 1 engine steps (R176, R260). -/
theorem engineSteps_idle (k : Nat) (s : State) (hp : s.phase = .running) (hk : s.rem < k) :
    (State.engineSteps k s).phase = .idle := by
  induction k generalizing s with
  | zero => omega
  | succ k ih =>
    rw [State.engineSteps]
    rcases engineStep_cases s with ⟨h, _⟩ | ⟨h, _⟩ | ⟨_, _, h⟩ | ⟨_, _, _, h⟩ | ⟨ds, _, hr, _, h⟩
    · rw [hp] at h
      cases h
    · rw [hp] at h
      cases h
    · rw [h, engineSteps_of_idle _ _ (by simp)]
      simp
    · rw [h, engineSteps_of_idle _ _ (by simp)]
      simp
    · have := stepSize_le s hr
      rw [h]
      apply ih
      · simpa using hp
      · simp only
        omega

/-- Once the engine's present work has ended, it is IDLE. -/
theorem settle_idle (s : State) : s.settle.phase = .idle := by
  unfold State.settle
  split
  · assumption
  · simp
  · exact engineSteps_idle _ s ‹_› (by omega)

end Sys2Proof.Machine
end

