-- ==== Sys2Proof/Tests/Slice0.lean ====
section
/-! SUPPORT. The author's own tests: the well-formedness checks, words decoded from the spec's encodings, the vectors of
95_test_vectors.md, one step of each instruction, and a witness for the hypotheses of every statement. -/

namespace Sys2Proof.Machine.Tests

open Sys2Proof Sys2Proof.Machine

/-! ## Small machines -/

/-- A configuration with every other parameter as in the default one. -/
def conf (st : Strategy) (ti : TableInit) : Config :=
  { Config.default with strategy := st, tableInit := ti }

/-- The bytes "123456789" at 0x1000 (P1). -/
def digits : Memory :=
  [(0x1000, 0x31), (0x1001, 0x32), (0x1002, 0x33), (0x1003, 0x34), (0x1004, 0x35), (0x1005, 0x36), (0x1006, 0x37),
    (0x1007, 0x38), (0x1008, 0x39)]

/-- A machine right after reset that has the digits and a buffer written to ADDR and LEN. -/
def machine (cfg : Config) (addr : DWord) (len : DWord) : State :=
  { State.launch cfg digits with
    addrLo := addr.extractLsb' 0 32
    addrHi := addr.extractLsb' 32 32
    lenLo := len.extractLsb' 0 32
    lenHi := len.extractLsb' 32 32 }

/-- The machine BITWISE with the buffer of the nine digits: it holds the tables it needs (none). -/
def bits : State := machine (conf .bitwise .auto) 0x1000 9

/-- The machine SLICE4 with ROM tables and the buffer of `len` digits. -/
def slice4 (len : DWord) : State := machine (conf .slice4 .rom) 0x1000 len

/-- The state after a CRC is accepted. -/
def afterCrc (s : State) : State := s.clearErrors.latch.startFold

/-- The state after a CRCPF is accepted. -/
def afterCrcpf (s : State) : State := s.clearErrors.latchPf.startFold

/-- The BITWISE machine whose address 0x1004 does not answer (V75). -/
def holed : State :=
  { bits with cfg := { bits.cfg with noAnswer := [⟨0x1004, 1⟩] } }

/-- A state with one event ahead. -/
def facing (s : State) (e : Event) : State := { s with queue := [e] }

/-- The next state's view of interest. -/
def next? (o : Host.Outcome State Fault Refusal) : Option State :=
  match o with
  | .next t => some t
  | .fault _ => none
  | .refused _ => none

/-- Whether a step answers a next state with another RESULT. -/
def resultChanges (s : State) : Option Bool :=
  (next? (step s)).map (fun t => decide (t.result ≠ s.result))

/-! ## Well-formedness: each check refuses an ill-formed term (R109, V70) -/

theorem test_wf_rdtbl_accepted : Instr.wellFormed (conf .byte .auto) true (.rdtbl 0 0xFF) = true := by decide
theorem test_wf_rdtbl_slice_refused : Instr.wellFormed (conf .byte .auto) true (.rdtbl 1 0x00) = false := by decide
theorem test_wf_rdtbl_tvalid_refused : Instr.wellFormed (conf .byte .auto) false (.rdtbl 0 0x00) = false := by decide
theorem test_wf_rdhtbl_accepted : Instr.wellFormed (conf .halfbyte .auto) true (.rdhtbl 15) = true := by decide
theorem test_wf_rdhtbl_strategy_refused : Instr.wellFormed (conf .slice16 .auto) true (.rdhtbl 0) = false := by decide
theorem test_wf_rdhtbl_tvalid_refused : Instr.wellFormed (conf .halfbyte .auto) false (.rdhtbl 0) = false := by decide

/-! ## Decoding: words written out field by field from R100 and R104 to R108 (RSV1, HSEL, TIDX, TSEL, RSV0, OP) -/

theorem test_decode_nop : decodeWord 0b00000000000_0_00000000_0000_0000_0000#32 = .ok .nop := by rfl
theorem test_decode_build : decodeWord 0b00000000000_0_00000000_0000_0000_0001#32 = .ok .build := by rfl
theorem test_decode_crc : decodeWord 0b00000000000_0_00000000_0000_0000_0010#32 = .ok .crc := by rfl
theorem test_decode_crcpf : decodeWord 0b00000000000_0_00000000_0000_0000_0011#32 = .ok .crcpf := by rfl
theorem test_decode_rdtbl : decodeWord 0b00000000000_0_10000000_0001_0000_0100#32 = .ok (.rdtbl 1 0x80) := by rfl
theorem test_decode_rdhtbl : decodeWord 0b00000000000_1_00001000_0000_0000_0100#32 = .ok (.rdhtbl 8) := by rfl

/-- V70, the legal words. -/
theorem test_v70_legal :
    decode Config.default true 0x00001004#32 = some (.rdtbl 0 0x01) ∧
    decode Config.default true 0x00000F04#32 = some (.rdtbl 15 0x00) ∧
    decode Config.default true 0x000FFF04#32 = some (.rdtbl 15 0xFF) ∧
    decode (conf .halfbyte .auto) true 0x00101004#32 = some (.rdhtbl 1) ∧
    decode (conf .halfbyte .auto) true 0x0010F004#32 = some (.rdhtbl 15) := by decide

/-- V70, the ILLEGAL words. -/
theorem test_v70_illegal :
    [0x00000005#32, 0x0000000F#32, 0x00000010#32, 0x00000044#32, 0x00000102#32, 0x80000000#32, 0xFFFFFFFF#32,
      0x00200004#32, 0x00100004#32].all (fun w => (decode Config.default true w).isNone) = true ∧
    decode Config.default false 0x00000004#32 = none ∧
    decode (conf .byte .auto) true 0x00000104#32 = none ∧
    ([Strategy.bitwise, .tableless, .halfbyte].all (fun st => (decode (conf st .auto) true 0x00000004#32).isNone) = true) ∧
    decode (conf .halfbyte .auto) true 0x00110004#32 = none ∧
    decode (conf .halfbyte .auto) true 0x00100104#32 = none := by decide +kernel

/-- The decoder's own reasons (R110). -/
theorem test_decode_reasons :
    decodeWord 0x00000005#32 = .error .reservedOp ∧ decodeWord 0x80000000#32 = .error .bitsAboveOp ∧
    decodeWord 0x00000044#32 = .error .reservedBits ∧ decodeWord 0x00100104#32 = .error .halfReadTsel ∧
    decodeWord 0x00110004#32 = .error .halfReadTidxHigh := by
  refine ⟨?_, ?_, ?_, ?_, ?_⟩ <;> rfl

/-! ## Vectors of the fold -/

/-- V1: the bit step. -/
theorem test_v1_bitstep :
    bitstep 0x00000001#32 = 0xEDB88320#32 ∧ bitstep 0x00000002#32 = 0x00000001#32 ∧
    bitstep 0x80000000#32 = 0x40000000#32 ∧ bitstep 0x12345678#32 = 0x091A2B3C#32 ∧
    bitstep 0xFFFFFFFF#32 = 0x92477CDF#32 := by decide

/-- V10, three entries of the base table. -/
theorem test_v10_base : baseEntry 0x01 = 0x77073096#32 ∧ baseEntry 0x08 = 0x0EDB8832#32 ∧ baseEntry 0xFF = 0x2D02EF8D#32 := by
  decide +kernel

/-- V11, entries of the extended tables. -/
theorem test_v11_extended :
    sliceEntry 1 0x01 = 0x191B3141#32 ∧ sliceEntry 3 0x80 = 0xED59B63B#32 ∧ sliceEntry 7 0xFF = 0x264B06E6#32 ∧
    sliceEntry 15 0x01 = 0xAE689191#32 ∧ sliceEntry 15 0xFF = 0x0D7139D7#32 := by decide +kernel

/-- V12, the half-byte table. -/
theorem test_v12_half : halfEntry 0x1 = 0x1DB71064#32 ∧ halfEntry 0x8 = 0xEDB88320#32 ∧ halfEntry 0xF = 0xBDBDF21C#32 := by
  decide +kernel

/-- V20: every one-byte datapath. -/
theorem test_v20_byte_steps :
    ∀ f ∈ [bytestepBit, bytestepTab baseEntry, bytestepTl, bytestepTlCircuit, bytestepHalf halfEntry],
      f 0xFFFFFFFF#32 0x31#8 = 0x7C231048#32 ∧ f 0x12345678#32 0xAB#8 = 0x1FC8B738#32 ∧
      f 0xDEADBEEF#32 0x55#8 = 0x2B6AF72C#32 := by
  intro f hf
  simp only [List.mem_cons, List.not_mem_nil, or_false] at hf
  rcases hf with rfl | rfl | rfl | rfl | rfl <;> decide +kernel

/-- V21: the half-byte step. -/
theorem test_v21_nibstep :
    nibstep halfEntry 0xFFFFFFFF#32 0x1#4 = 0xAFF51D87#32 ∧ nibstep halfEntry 0x12345678#32 0xA#4 = 0x3A4D65AF#32 := by
  decide +kernel

/-- V22: the slicing steps. -/
theorem test_v22_slicing :
    slicestep sliceEntry 4 0xFFFFFFFF#32 [0x31, 0x32, 0x33, 0x34] = 0x641C1F5C#32 ∧
    slicestep sliceEntry 8 0x12345678#32 [0, 1, 2, 3, 4, 5, 6, 7] = 0x57F36007#32 ∧
    slicestep sliceEntry 16 0xFFFFFFFF#32
      [0x30, 0x31, 0x32, 0x33, 0x34, 0x35, 0x36, 0x37, 0x38, 0x39, 0x61, 0x62, 0x63, 0x64, 0x65, 0x66] = 0x973B0FCC#32 := by
  decide +kernel

/-- V24, V53 and V54: results of the reference function. -/
theorem test_crc32_values :
    crc32 0 (digits.map (fun e => e.2)) = 0xCBF43926#32 ∧ crc32 0 [0x61, 0x62, 0x63] = 0x352441C2#32 ∧
    crc32 0xDEADBEEF#32 [0x00] = 0xE269BDDA#32 := by decide +kernel

/-! ## Vectors of the registers -/

/-- V72: CFG. -/
theorem test_v72_cfg :
    Config.default.word = 0x40100116#32 ∧ (conf .slice8 .cmd).word = 0x40080125#32 ∧
    ({ conf .slice4 .rom with pfImpl := false, aw := 40 } : Config).word = 0x28040004#32 ∧
    (conf .byte .auto).word = 0x40010112#32 ∧ (conf .tableless .auto).word = 0x40000113#32 ∧
    ({ conf .halfbyte .cmd with pfImpl := false, aw := 32 } : Config).word = 0x20200021#32 ∧
    ({ conf .bitwise .rom with aw := 48 } : Config).word = 0x30000100#32 := by decide

/-- V73: STATUS after reset. -/
theorem test_v73_status :
    State.reset.status = 0x00000001#32 ∧ (State.launch (conf .bitwise .auto) []).status = 0x00000002#32 ∧
    (State.launch (conf .slice16 .cmd) []).status = 0x00000000#32 ∧
    (State.launch (conf .tableless .rom) []).status = 0x00000002#32 := by decide

/-- V71: the effect of an ILLEGAL word on STATUS and RESULT. -/
theorem test_v71_illegal_word :
    (next? (accept 0x00000005#32 { bits with result := 0x12345678 })).map (fun t => (t.status, t.result)) =
      some (0x00000006#32, 0x12345678#32) := by decide

/-! ## One step of each instruction -/

theorem test_nop_clears_ill : (next? (exec .nop { bits with ill := true })).map State.status = some 0x00000002#32 := by
  decide

theorem test_build_starts : (next? (exec .build (State.launch (conf .byte .cmd) []))).map State.status = some 0x00000001#32 := by
  decide

/-- The last step of the AUTO build of HALFBYTE writes H[15] (V12) and ends the build (R136). -/
theorem test_build_last_step :
    let s := { State.launch (conf .halfbyte .auto) [] with bi := 15 }
    s.engineStep.halfTableEntry 15 = 0xBDBDF21C#32 ∧ s.engineStep.status = 0x00000002#32 := by decide +kernel

/-- V24's first row: one datapath step of CRC folds '1'. -/
theorem test_crc_first_byte : (afterCrc bits).engineStep.c = 0x7C231048#32 ∧ (afterCrc bits).engineStep.reads = [0x1000] := by
  decide +kernel

/-- V75: the failing read at 0x1004 ends the command with RESULT as it was. -/
theorem test_crc_bus_error :
    let s := { afterCrc holed with cur := 0x1004, rem := 5 }
    s.engineStep.reads = [0x1004] ∧ s.engineStep.status = 0x0000000A#32 ∧ s.engineStep.result = 0 := by decide +kernel

/-- V74: a + n = 2^64 is legal and a + n = 2^64 + 1 is a range error (STATUS 0x0000000A). -/
theorem test_crcpf_range :
    (next? (exec .crcpf (machine (conf .bitwise .auto) 0xFFFFFFFFFFFFFFFF 1))).map State.status = some 0x00000003#32 ∧
    (next? (exec .crcpf (machine (conf .bitwise .auto) 0xFFFFFFFFFFFFFFFF 2))).map State.status = some 0x0000000A#32 := by
  decide

/-- Both checksum commands latch PFD at acceptance (R46, D12); only CRCPF may send hints (R206). -/
theorem test_crcpf_latches_pfd :
    (afterCrcpf { bits with pfdLo := 16 }).d = 16 ∧ (afterCrc { bits with pfdLo := 16 }).d = 16 ∧
    (afterCrcpf bits).pfOn = true ∧ (afterCrc bits).pfOn = false := by decide

/-- V11 at k = 1, b = 0x80, from the tables of ROM. -/
theorem test_rdtbl_entry :
    (next? (exec (.rdtbl 1 0x80) (slice4 0))).map (fun t => t.result) = some 0x3B83984B#32 := by decide +kernel

theorem test_rdtbl_illegal : (next? (exec (.rdtbl 4 0x00) (slice4 0))).map State.status = some 0x00000006#32 := by
  decide +kernel

/-- V12 at q = 8. -/
theorem test_rdhtbl_entry :
    (next? (exec (.rdhtbl 8) (State.launch (conf .halfbyte .rom) []))).map (fun t => t.result) = some 0xEDB88320#32 := by
  decide +kernel

theorem test_rdhtbl_illegal : (next? (exec (.rdhtbl 8) bits)).map State.status = some 0x00000006#32 := by decide

/-! ## Machines that meet the invariant -/

theorem bits_inv : Inv bits where
  cfg := by decide
  memCanonical := by decide
  memSpace := by decide
  addrHardwired := by decide
  oneError := by decide
  busyNoError := by decide
  shape := ⟨by decide, by decide, by decide⟩
  tablesValid _ := ⟨rfl, rfl⟩
  tvalidAlways _ := rfl
  building h := by cases h
  running h := by cases h
  readsInOrder := rfl
  readsInside := by decide
  hintsInside := by decide
  hintsOnlyPf _ := rfl
  racedRecorded _ := rfl

/-- The same with LEN = 0. -/
theorem bits_empty_inv : Inv (machine (conf .bitwise .auto) 0x1000 0) :=
  { bits_inv with
    shape := ⟨by decide, by decide, by decide⟩
    building := fun h => by cases h
    running := fun h => by cases h }

/-- The SLICE4 machine in mid-command: nothing consumed yet. -/
theorem slice4_running_inv (len : DWord) (h : len = 3 ∨ len = 4) : Inv (afterCrc (slice4 len)) := by
  have hs : (afterCrc (slice4 len)).phase = .running := by rcases h with rfl | rfl <;> decide
  exact {
    cfg := by rcases h with rfl | rfl <;> decide
    memCanonical := by rcases h with rfl | rfl <;> decide
    memSpace := by rcases h with rfl | rfl <;> decide
    addrHardwired := by rcases h with rfl | rfl <;> decide
    oneError := by rcases h with rfl | rfl <;> decide
    busyNoError := by rcases h with rfl | rfl <;> decide
    shape := by rcases h with rfl | rfl <;> exact ⟨by decide +kernel, by decide +kernel, by decide⟩
    tablesValid := by rcases h with rfl | rfl <;> exact fun _ => ⟨rfl, rfl⟩
    tvalidAlways := by rcases h with rfl | rfl <;> exact fun _ => rfl
    building := fun h => by rw [hs] at h; cases h
    running := fun _ => by rcases h with rfl | rfl <;> exact ⟨by decide, by decide, by decide, by decide, by decide, fun _ => rfl⟩
    readsInOrder := by rcases h with rfl | rfl <;> rfl
    readsInside := by rcases h with rfl | rfl <;> decide
    hintsInside := by rcases h with rfl | rfl <;> decide
    hintsOnlyPf := by rcases h with rfl | rfl <;> exact fun _ => rfl
    racedRecorded := by rcases h with rfl | rfl <;> exact fun _ => rfl }

/-- The HALFBYTE machine whose AUTO build starts at reset. -/
def halfBuild : State := State.launch (conf .halfbyte .auto) []

theorem halfBuild_inv : Inv halfBuild where
  cfg := by decide
  memCanonical := by decide
  memSpace := by decide
  addrHardwired := by decide
  oneError := by decide
  busyNoError _ := ⟨rfl, rfl⟩
  shape := ⟨by decide, by decide, by decide⟩
  tablesValid h := by cases h
  tvalidAlways h := by cases h
  building _ := ⟨rfl, rfl, .inr ⟨rfl, rfl, by decide⟩, fun _ h => absurd h (Nat.not_lt_zero _),
    fun _ _ _ h => absurd h (Nat.not_lt_zero _)⟩
  running h := by cases h
  readsInOrder := rfl
  readsInside := by decide
  hintsInside := by decide
  hintsOnlyPf _ := rfl
  racedRecorded _ := rfl

/-- The HALFBYTE machine after a BUILD by command: tables valid, IDLE. -/
def halfReady : State :=
  { State.launch (conf .halfbyte .cmd) [] with
    half := builtHalf (conf .halfbyte .cmd)
    tvalid := true }

theorem halfReady_inv : Inv halfReady where
  cfg := by decide
  memCanonical := by decide
  memSpace := by decide
  addrHardwired := by decide
  oneError := by decide
  busyNoError h := absurd rfl h
  shape := ⟨by decide, by decide, by decide⟩
  tablesValid _ := ⟨rfl, rfl⟩
  tvalidAlways _ := rfl
  building h := by cases h
  running h := by cases h
  readsInOrder := rfl
  readsInside := by decide
  hintsInside := by decide
  hintsOnlyPf _ := rfl
  racedRecorded _ := rfl

/-- The SLICE4 machine with ROM tables, IDLE. -/
theorem slice4_inv : Inv (slice4 4) where
  cfg := by decide
  memCanonical := by decide
  memSpace := by decide
  addrHardwired := by decide
  oneError := by decide
  busyNoError h := absurd rfl h
  shape := ⟨by decide +kernel, by decide +kernel, by decide⟩
  tablesValid _ := ⟨rfl, rfl⟩
  tvalidAlways _ := rfl
  building h := by cases h
  running h := by cases h
  readsInOrder := rfl
  readsInside := by decide
  hintsInside := by decide
  hintsOnlyPf _ := rfl
  racedRecorded _ := rfl

/-! ## Witnesses: for each statement with hypotheses, a state and operands that meet them all -/

theorem witness_DecodeInvertsEncode :
    decodeWord 0x000FFF04#32 = .ok (.rdtbl 15 0xFF) ∧ decodeWord 0x0010F004#32 = .ok (.rdhtbl 15) := by
  constructor <;> rfl

theorem witness_IllegalWordsSetIllOnly :
    (decode bits.cfg bits.tvalid 0x00000005#32 = none ∧ decode bits.cfg bits.tvalid 0xFFFFFFFF#32 = none) ∧
    (decode bits.cfg bits.tvalid 0x00000013#32 = none ∧ decode bits.cfg bits.tvalid 0x80000000#32 = none) ∧
    (decode bits.cfg bits.tvalid 0x000000F4#32 = none ∧ decode bits.cfg bits.tvalid 0x00200004#32 = none) ∧
    (decode (slice4 4).cfg (slice4 4).tvalid 0x00000404#32 = none ∧ decode State.reset.cfg State.reset.tvalid 0x00000004#32 = none) ∧
    (decode halfReady.cfg halfReady.tvalid 0x00110004#32 = none ∧ decode bits.cfg bits.tvalid 0x00100004#32 = none) := by
  decide +kernel

theorem witness_AcceptRunsTheDecodedCommand :
    decode bits.cfg bits.tvalid 0x00000003#32 = some .crcpf ∧
    decode (slice4 4).cfg (slice4 4).tvalid 0x000FF304#32 = some (.rdtbl 3 0xFF) ∧
    decode halfReady.cfg halfReady.tvalid 0x0010F004#32 = some (.rdhtbl 15) := by decide +kernel

theorem witness_SlicingStepIsByteSteps :
    ((4 = 4 ∨ 4 = 8 ∨ 4 = 16) ∧ (List.replicate 4 (0 : Byte)).length = 4) ∧
    ((8 = 4 ∨ 8 = 8 ∨ 8 = 16) ∧ (List.replicate 8 (0 : Byte)).length = 8) ∧
    ((16 = 4 ∨ 16 = 8 ∨ 16 = 16) ∧ (List.replicate 16 (0 : Byte)).length = 16) := by decide

/-- Refused and admitted accesses at the edges of R31, by offset and by system address: the last offset, the first outside,
a width of 2, a misalignment; the first address past the window. -/
theorem witness_UnadmittedAccessesAreRefused :
    bits.waiting = none ∧ bits.cfg.regBase = 0 ∧
    ((facing bits (.access (.read 256 4))).queue = [.access (.read 256 4)] ∧ ¬ (4 = 4 ∧ 256 % 4 = 0 ∧ 256 < 256)) ∧
    ((facing bits (.access (.read 252 4))).queue = [.access (.read 252 4)] ∧ (4 = 4 ∧ 252 % 4 = 0 ∧ 252 < 256)) ∧
    ((facing bits (.access (.write 8 2 0))).queue = [.access (.write 8 2 0)] ∧ ¬ (2 = 4 ∧ 8 % 4 = 0 ∧ 8 < 256)) ∧
    ((facing bits (.access (.write 0 4 0))).queue = [.access (.write 0 4 0)] ∧ (4 = 4 ∧ 0 % 4 = 0 ∧ 0 < 256)) ∧
    ((facing bits (.busRead 256 4)).queue = [.busRead 256 4] ∧ ¬ (0 ≤ 256 ∧ 256 < 0 + 256)) ∧
    ((facing bits (.busWrite 255 4 0)).queue = [.busWrite 255 4 0] ∧ (0 ≤ 255 ∧ 255 < 0 + 256) ∧
      ¬ (4 = 4 ∧ (255 - 0) % 4 = 0)) ∧
    ((facing bits (.busRead 252 4)).queue = [.busRead 252 4] ∧ (0 ≤ 252 ∧ 252 < 0 + 256) ∧
      (4 = 4 ∧ (252 - 0) % 4 = 0)) := by decide

theorem witness_HostReadReturnsRegister :
    bits.waiting = none ∧ 252 % 4 = 0 ∧ 252 < 256 ∧
    (facing bits (.access (.read 252 4))).queue = [.access (.read 252 4)] ∧
    (facing bits (.busRead (bits.cfg.regBase + 0) 4)).queue = [.busRead (bits.cfg.regBase + 0) 4] := by decide

theorem witness_OperandWriteIsPerformedAtOnce :
    (afterCrc bits).waiting = none ∧ (afterCrc bits).busy = true ∧ offPREV % 4 = 0 ∧ offPREV < 256 ∧ offPREV ≠ offCMD ∧
    (facing (afterCrc bits) (.access (.write offPREV 4 7))).queue = [.access (.write offPREV 4 7)] ∧
    (facing bits (.busWrite (bits.cfg.regBase + offPREV) 4 7)).queue = [.busWrite (bits.cfg.regBase + offPREV) 4 7] := by
  decide

theorem witness_ReservedAndReadOnlyOffsets : 0x2C ≤ 0x2C ∧ 0x2C ≤ 0xFC := by decide

theorem witness_LenAndPfdReadBack :
    ∀ off ∈ [offLEN_LO, offLEN_HI, offPFD_LO, offPFD_HI],
      (off = offLEN_LO ∨ off = offLEN_HI ∨ off = offPFD_LO ∨ off = offPFD_HI) ∧ offCMD ≠ off ∧ offPREV ≠ off := by decide

theorem witness_PrevReadsBack : offLEN_LO ≠ offPREV ∧ offCFG ≠ offPREV := by decide

/-- At AW = 40, ADDR bit 39 is writable and bit 40 is not; the other offsets of both clauses. -/
theorem witness_AddressBitsAboveAwAreHardwired :
    0 < 32 ∧ 31 < 32 ∧ 32 + 7 < ({ conf .bitwise .auto with aw := 40 } : Config).aw ∧
    ¬ 32 + 8 < ({ conf .bitwise .auto with aw := 40 } : Config).aw ∧
    offADDR_HI ≠ offADDR_LO ∧ offADDR_LO ≠ offADDR_HI := by decide

theorem witness_CfgFields :
    bits.cfg.wf = true ∧ ({ conf .bitwise .auto with aw := 32 } : Config).wf = true := by decide

theorem witness_NopOnlyClearsErrors : State.reset.busy = true := by decide

theorem witness_BuildStartsTheBuilder :
    (halfReady.cfg.strategy.needsTables = true ∧ halfReady.cfg.tableInit ≠ .rom) ∧
    bits.cfg.strategy.needsTables = false ∧ (slice4 4).cfg.tableInit = .rom := by decide

theorem witness_RdtblReadsTheEntry :
    (3 < (slice4 4).cfg.strategy.nslices ∧ (slice4 4).tvalid = true) ∧
    ¬ (4 < (slice4 4).cfg.strategy.nslices ∧ (slice4 4).tvalid = true) ∧
    ¬ (15 < State.reset.cfg.strategy.nslices ∧ State.reset.tvalid = true) := by decide

theorem witness_RdhtblReadsTheEntry :
    (halfReady.cfg.strategy = .halfbyte ∧ halfReady.tvalid = true) ∧
    ¬ (halfBuild.cfg.strategy = .halfbyte ∧ halfBuild.tvalid = true) ∧
    ¬ (bits.cfg.strategy = .halfbyte ∧ bits.tvalid = true) := by decide

theorem witness_TableReadsReturnBuiltValues :
    (Inv (slice4 4) ∧ (slice4 4).tvalid = true ∧ (3 : Nibble).toNat < (slice4 4).cfg.strategy.nslices) ∧
    (Inv halfReady ∧ halfReady.tvalid = true ∧ halfReady.cfg.strategy = .halfbyte) :=
  ⟨⟨slice4_inv, by decide, by decide⟩, halfReady_inv, by decide, by decide⟩

/-- V74: the largest buffer end, 2^64 (CrcStartsTheRun, CrcpfStartsTheRun). -/
theorem witness_CrcStartsTheRun :
    let s := machine (conf .bitwise .auto) 0xFFFFFFFFFFFFFFFF 1
    s.addr.toNat + s.len.toNat ≤ 2 ^ s.cfg.aw := by decide

theorem witness_CrcpfStartsTheRun :
    let s := machine (conf .bitwise .auto) 0 0xFFFFFFFFFFFFFFFF
    s.addr.toNat + s.len.toNat ≤ 2 ^ s.cfg.aw := by decide

theorem witness_RangeErrorSetsBerrAndLatches :
    let s := machine (conf .bitwise .auto) 0xFFFFFFFFFFFFFFFF 2
    2 ^ s.cfg.aw < s.addr.toNat + s.len.toNat ∧
    Inv (machine (conf .bitwise .auto) 0x1000 0) ∧ (machine (conf .bitwise .auto) 0x1000 0).len = 0 :=
  ⟨by decide, bits_empty_inv, by decide⟩

theorem witness_BerrAtAcceptanceIsTheRangeError :
    let s := machine (conf .bitwise .auto) 0xFFFFFFFFFFFFFFFF 2
    (0x00000003#32 = 0x00000002#32 ∨ 0x00000003#32 = 0x00000003#32) ∧ 2 ^ s.cfg.aw < s.addr.toNat + s.len.toNat := by
  decide

theorem witness_CommandFrame :
    exec .nop bits = .next bits.clearErrors ∧ exec .crc bits = .next (afterCrc bits) ∧
    exec .crcpf bits = .next (afterCrcpf bits) ∧ exec (.rdtbl 0 0) bits = .next bits.illegalWord ∧
    exec (.rdhtbl 0) bits = .next bits.illegalWord ∧ exec .build bits = .next bits.clearErrors :=
  ⟨rfl, rfl, rfl, rfl, rfl, rfl⟩

theorem witness_EngineStepFrame :
    bits.phase ≠ .building ∧ bits.phase ≠ .running ∧ (afterCrc bits).phase ≠ .building ∧ halfBuild.phase ≠ .running ∧
    (afterCrc bits).rem ≠ 0 := by decide

/-- A whole group of SLICE4 (n = 4), and the remainder step (n = 3). -/
theorem witness_DatapathStepFoldsTheNextBytes :
    ∀ len ∈ [(3 : DWord), 4], Inv (afterCrc (slice4 len)) ∧ (afterCrc (slice4 len)).phase = .running ∧
      (afterCrc (slice4 len)).rem ≠ 0 ∧ (afterCrc (slice4 len)).raced = [] ∧
      bufferAnswers (afterCrc (slice4 len)).cfg (afterCrc (slice4 len)).cur 4 := by
  intro len h
  refine ⟨slice4_running_inv len (by simpa using h), ?_⟩
  simp only [List.mem_cons, List.not_mem_nil, or_false] at h
  rcases h with rfl | rfl <;> exact ⟨by decide, by decide, by decide, fun _ _ => rfl⟩

/-- The hole of V75 at the first and at the last byte of a group of SLICE4. -/
theorem witness_BusErrorEndsTheCommand :
    ∀ j ∈ [0, 3],
      let s := { afterCrc (slice4 4) with cfg := { (slice4 4).cfg with noAnswer := [⟨0x1000 + j, 1⟩] } }
      s.phase = .running ∧ s.rem ≠ 0 ∧ j < (if s.dp.groupSize ≤ s.rem then s.dp.groupSize else 1) ∧
      (∀ i < j, s.cfg.memOk (s.cur + i) = true) ∧ s.cfg.memOk (s.cur + j) = false := by decide

theorem witness_CompletionWritesResult :
    (afterCrc (machine (conf .bitwise .auto) 0x1000 0)).phase = .running ∧
    (afterCrc (machine (conf .bitwise .auto) 0x1000 0)).rem = 0 := by decide

theorem witness_ChecksumCommandsReturnTheReference :
    (Instr.crcpf = .crc ∨ Instr.crcpf = .crcpf) ∧ Inv bits ∧ bits.busy = false ∧
    bits.addr.toNat + bits.len.toNat ≤ 2 ^ bits.cfg.aw ∧ bufferAnswers bits.cfg bits.addr.toNat bits.len.toNat :=
  ⟨.inr rfl, bits_inv, by decide, by decide, fun _ _ => rfl⟩

theorem witness_ZeroLengthReturnsPrev :
    let s := machine (conf .bitwise .auto) 0x1000 0
    Inv s ∧ s.busy = false ∧ s.len = 0 := ⟨bits_empty_inv, by decide, by decide⟩

/-- The start of the only group of a 16-byte buffer, d inside it and d past its end; no engine step runs a command; a hint
sent by a command that has ended. -/
theorem witness_HintPlacement :
    (bits.phase ≠ .running ∧ (afterCrc (machine (conf .bitwise .auto) 0x1000 0)).rem = 0) ∧
    Inv { bits with a := 0x1000, n := 16, pfOn := true, hints := [0x100F] } ∧
    [(0 : Word), 16].all (fun d =>
      let s := afterCrcpf { machine (conf .bitwise .auto) 0x1000 16 with pfdLo := d }
      decide (s.phase = .running ∧ s.rem ≠ 0 ∧ s.pfOn = true ∧ s.cfg.pfImpl = true ∧ s.atGroupStart = true)) = true :=
  ⟨by decide, { bits_inv with
    shape := ⟨by decide, by decide, by decide⟩
    building := fun h => by cases h
    running := fun h => by cases h
    readsInOrder := rfl
    readsInside := by decide
    hintsInside := by decide
    hintsOnlyPf := fun h => by rcases h with h | h <;> cases h }, by decide⟩

theorem witness_BuildEndsWithTheTables : Inv halfBuild ∧ halfBuild.phase = .building := ⟨halfBuild_inv, rfl⟩

theorem witness_RebuildKeepsTheTables :
    (Inv halfReady ∧ halfReady.busy = false ∧ halfReady.tvalid = true) ∧
    (Inv bits ∧ bits.busy = false ∧ bits.tvalid = true) :=
  ⟨⟨halfReady_inv, rfl, rfl⟩, bits_inv, rfl, rfl⟩

/-- A legal word and an ILLEGAL one, at the head of the schedule in both forms, and waiting. -/
theorem witness_StepRunsTheDecodedCommand :
    bits.busy = false ∧ bits.waiting = none ∧ decodeWord 0x00000002#32 = .ok .crc ∧
    decode bits.cfg bits.tvalid 0x00000005#32 = none ∧
    (facing bits (.access (.write offCMD 4 0x00000005))).queue = [.access (.write offCMD 4 0x00000005)] ∧
    (facing bits (.busWrite bits.cfg.regBase 4 0x00000002)).queue = [.busWrite bits.cfg.regBase 4 0x00000002] ∧
    ({ bits with waiting := some 0x00000002 } : State).waiting = some 0x00000002 :=
  ⟨rfl, rfl, rfl, rfl, rfl, rfl, rfl⟩

theorem witness_PlacedWordRunsNext :
    decodeTableWord 32 0x00000000 = some .nop ∧ decodeTableWord 32 0x000FFF04 = some (.rdtbl 15 0xFF) := by decide +kernel

/-- A busy state with a CMD write ahead, in both forms, and one with a CMD write waiting and each of the host's events ahead,
or none. -/
theorem witness_CmdWriteWaitsWhileBusy :
    let w := { afterCrc bits with waiting := some 0x00000001 }
    ((afterCrc bits).busy = true ∧ (afterCrc bits).waiting = none ∧
      (facing (afterCrc bits) (.access (.write offCMD 4 1))).queue = [.access (.write offCMD 4 1)] ∧
      (facing (afterCrc bits) (.busWrite bits.cfg.regBase 4 1)).queue = [.busWrite (afterCrc bits).cfg.regBase 4 1]) ∧
    (w.busy = true ∧ w.waiting = some 0x00000001 ∧ w.queue = [] ∧
      (facing w (.access (.read offSTATUS 4))).queue = [.access (.read offSTATUS 4)] ∧
      (facing w (.busRead 4 4)).queue = [.busRead 4 4] ∧ (facing w (.busWrite 8 4 7)).queue = [.busWrite 8 4 7] ∧
      (facing w .poll).queue = [.poll] ∧ (facing w .chain).queue = [.chain] ∧
      (facing w (.store .host 0x1000 0)).queue = [.store .host 0x1000 0]) := by decide

theorem witness_LaunchHasTheInvariant :
    (conf .slice8 .cmd).wf = true ∧ Memory.wf digits = true ∧ ∀ e ∈ digits, e.1 < (conf .slice8 .cmd).space := by decide

theorem witness_StepKeepsTheInvariant : Inv bits ∧ step bits = .next bits := ⟨bits_inv, rfl⟩

theorem witness_ResetValues : (conf .slice4 .rom).tableInit = .rom ∧ halfBuild.phase = .building := by decide

/-- A reset of a running command, with no CMD write waiting and with one. -/
theorem witness_ResetEndsTheWork :
    let w := { afterCrc bits with waiting := some 0x00000001 }
    (facing (afterCrc bits) .reset).queue = .reset :: [] ∧ (facing (afterCrc bits) .reset).waiting = none ∧
    (facing w .reset).queue = .reset :: [] ∧ (facing w .reset).waiting = some 0x00000001 ∧
    (facing w .reset).busy = true := by decide

/-- A completion that changes RESULT, a table read that does, a half-byte table read that does, and a reset. -/
theorem witness_ResultIsWrittenOnlyThen :
    resultChanges { afterCrc (machine (conf .bitwise .auto) 0x1000 0) with result := 5 } = some true ∧
    resultChanges (facing (slice4 4) (.access (.write offCMD 4 0x00001004))) = some true ∧
    resultChanges (facing halfReady (.access (.write offCMD 4 0x00108004))) = some true ∧
    resultChanges (facing { bits with result := 5 } .reset) = some true := by decide +kernel

/-- The first and the last of the operand registers, by offset and by system address; a reset. -/
theorem witness_OperandsAreWrittenByTheHostOnly :
    (let s := facing bits (.access (.write offPREV 4 7))
     (next? (step s)).map (fun t => decide (t.prev ≠ s.prev)) = some true) ∧
    (let s := facing bits (.busWrite (bits.cfg.regBase + offPFD_HI) 4 7)
     (next? (step s)).map (fun t => decide (t.pfd ≠ s.pfd)) = some true) ∧
    (let s := facing bits .reset
     (next? (step s)).map (fun t => decide (t.len ≠ s.len)) = some true) := by decide

theorem witness_ConfigurationIsFixed : step bits = .next bits := rfl

/-- A store over the first digit. -/
theorem witness_OnlyStoresChangeTheMemory :
    let s := facing bits (.store .host 0x1000 0x7A)
    s.mem.wf = true ∧ (next? (step s)).map (fun t => decide (t.mem.read 0x1000 ≠ s.mem.read 0x1000)) = some true := by
  decide

theorem witness_ModelFaultsAreNeverCleared :
    let s := facing (afterCrc bits) (.store .otherAgent 0x1000 0x7A)
    (next? (step s)).map (fun t => t.modelFaults) = some [.bufferChangedDuringCommand 0x1000] ∧
    (next? (step { bits with modelFaults := [.bufferChangedDuringCommand 0x1000] })).map (fun t => t.modelFaults) =
      some [.bufferChangedDuringCommand 0x1000] := by decide

/-- A good final state exists. -/
theorem test_good_final_state : bits.goodFinal := ⟨⟨rfl, rfl, rfl⟩, rfl⟩

/-- The last byte of the running buffer and the first past it, by another agent while a CMD write waits; the last byte of the
memory and the first address past it, by the host. -/
theorem witness_StoreIntoRunningBufferIsRecorded :
    bits.memRead 0x1000 = some 0x31 ∧
    (∀ addr ∈ [0x1008, 0x1009],
      let s := facing { afterCrc bits with waiting := some 0x00000000 } (.store .otherAgent addr 0)
      s.queue = .store .otherAgent addr 0 :: [] ∧ s.waiting ≠ none ∧ s.busy = true ∧ addr < 2 ^ s.cfg.aw ∧
      s.mem.wf = true ∧ s.phase = .running ∧
      ((s.a.toNat ≤ addr ∧ addr < s.a.toNat + s.n.toNat) ↔ addr = 0x1008)) ∧
    (∀ addr ∈ [2 ^ 64 - 1, 2 ^ 64],
      let s := facing bits (.store .host addr 0)
      s.queue = .store .host addr 0 :: [] ∧ s.waiting = none ∧ (2 ^ s.cfg.aw ≤ addr ↔ addr = 2 ^ 64)) := by decide

theorem witness_ChainThreadsTheResult :
    (facing bits .chain).queue = .chain :: [] ∧ (facing bits .chain).waiting = none := by decide

/-- Only a reset changes ILL with no word accepted. -/
theorem witness_IllDescribesTheLastWord :
    let s := facing { bits with ill := true } .reset
    s.acceptsNext = none ∧ (next? (step s)).map (fun t => decide (t.ill ≠ s.ill)) = some true := by decide

theorem witness_PollRepeatsWhileBusy :
    (facing bits .poll).queue = .poll :: [] ∧ (facing bits .poll).waiting = none ∧ (facing bits .poll).busy = false ∧
    (facing (afterCrc bits) .poll).busy = true := by decide

/-- A running command with the schedule empty, and with an engine step on it while a CMD write waits: the engine's step is no
step in place. -/
theorem witness_EngineStepsWhenScheduledOrAlone :
    (let s := afterCrc bits
     s.queue = [] ∧ s.waiting = none ∧ decide (s.engineStep = s) = false) ∧
    (let s := facing { afterCrc bits with waiting := some 0x00000000 } .engine
     s.queue = .engine :: [] ∧ s.busy = true) := by decide

theorem witness_FinishedMachineStaysPut : bits.finished := ⟨rfl, rfl, rfl⟩

/-! ## The host's questions -/

/-- The word placed right after reset runs in the very next step: RDTBL after the AUTO build (P5, V10). -/
theorem test_placed_word_runs :
    (next? (step (State.reset.withFetchWord 32 0x00001004))).map (fun t => t.result) = some 0x77073096#32 := by
  decide +kernel

end Sys2Proof.Machine.Tests
end

/-! The two statements about the machine as a whole (00_scope.md R10, R11): no step changes the configuration, and when the
machine's step is the engine's. -/

namespace Sys2Proof.Machine

/-! ## Which step the schedule asks for -/

/-- With the schedule empty the engine steps, whether no CMD write waits or one waits for BUSY = 0 (R48, R260). -/
theorem step_of_queue_nil {s : State} (hw : s.waiting = none ∨ s.busy = true) (hq : s.queue = []) :
    step s = .next s.engineStep := by
  unfold step advance
  split
  case h_1 => simp [advanceQueue, hq]
  case h_2 w h =>
    have hb : s.busy = true := hw.resolve_left (by simp [h])
    simp [hb, advanceBlocked, hq]

/-- The event at the head of the schedule is performed with no CMD write waiting, and an event that is not the host's also
while one waits for BUSY = 0 (R48, R256). -/
theorem step_of_queue_cons {s : State} {e : Event} {rest : List Event}
    (hw : s.waiting = none ∨ (s.busy = true ∧ e.isHostAccess = false)) (hq : s.queue = e :: rest) :
    step s = perform e { s with queue := rest } := by
  unfold step advance
  split
  case h_1 => simp [advanceQueue, hq]
  case h_2 w h =>
    obtain ⟨hb, he⟩ := hw.resolve_left (by simp [h])
    simp [hb, advanceBlocked, hq, he]

/-- Settles O58: the engine's own event is not the host's, so a waiting CMD write does not hold it up. -/
theorem engineStepsWhenScheduledOrAlone : Obligations.EngineStepsWhenScheduledOrAlone := by
  intro s hw
  refine ⟨step_of_queue_nil hw, fun rest hq => ?_⟩
  exact step_of_queue_cons (hw.imp_right fun hb => ⟨hb, rfl⟩) hq

/-! ## The configuration is fixed -/

@[simp] theorem engineStep_cfg (s : State) : s.engineStep.cfg = s.cfg := (engineStep_frame s).1

@[simp] theorem hardReset_cfg (s : State) : s.hardReset.cfg = s.cfg := rfl

@[simp] theorem regWrite_cfg (s : State) (off : Nat) (v : Word) : (s.regWrite off v).cfg = s.cfg := by
  rcases regWrite_cases s off v with ⟨_, h⟩ | ⟨_, h⟩ | ⟨_, h⟩ | ⟨_, h⟩ | ⟨_, h⟩ | ⟨_, h⟩ | ⟨_, h⟩ | h <;> rw [h]

@[simp] theorem storeByte_cfg (s : State) (addr : Nat) (b : Byte) : (s.storeByte addr b).cfg = s.cfg := by
  rcases storeByte_cases s addr b with ⟨_, h⟩ | ⟨_, h⟩ <;> rw [h]

@[simp] theorem startFold_cfg (s : State) : s.startFold.cfg = s.cfg := by
  rcases startFold_cases s with ⟨_, h⟩ | ⟨_, h⟩ <;> simp [h]

/-- No command's acceptance step changes the configuration (R102). -/
theorem exec_next_cfg {i : Instr} {s t : State} (h : exec i s = .next t) : t.cfg = s.cfg := by
  rcases exec_cases i s with
    ⟨_, hx⟩ | ⟨_, _, hx⟩ | ⟨_, _, hx⟩ | ⟨_, hx⟩ | ⟨_, hx⟩ | ⟨_, _, hx⟩ | ⟨_, hx⟩ <;>
  · cases hx.symm.trans h
    simp

/-- Nor does the acceptance of any word, legal or ILLEGAL (R110). -/
theorem accept_next_cfg {w : Word} {s t : State} (h : accept w s = .next t) : t.cfg = s.cfg := by
  rcases accept_cases w s with ⟨i, _, hx⟩ | ⟨_, _, hx⟩
  · exact exec_next_cfg (hx.symm.trans h)
  · cases hx.symm.trans h
    simp

/-- No event changes the configuration: only the CMD write accepted at once (the sixth case) is more than an update of named
fields. -/
theorem perform_next_cfg {e : Event} {s t : State} (h : perform e s = .next t) : t.cfg = s.cfg := by
  rcases perform_cases h with
    ⟨_, _, rfl⟩ | ⟨_, _, rfl⟩ | ⟨_, rfl⟩ | ⟨_, _, _, _, rfl⟩ | ⟨_, _, _, rfl⟩ | ⟨_, _, _, ha⟩ | ⟨_, _, _, _, _, rfl⟩ |
    ⟨_, rfl⟩ | ⟨_, rfl⟩
  on_goal 6 => exact accept_next_cfg ha
  all_goals simp

/-- Settles O51, by the cases of a step: an engine step, the acceptance of a waiting CMD write, or an event. -/
theorem configurationIsFixed : Obligations.ConfigurationIsFixed := by
  intro s t h
  rcases step_cases h with ⟨_, _, rfl⟩ | ⟨_, _, _, _, _, _, rfl⟩ | ⟨_, _, _, ha⟩ | ⟨_, _, _, _, hp⟩
  · exact engineStep_cfg s
  · exact engineStep_cfg s
  · exact (accept_next_cfg ha :)
  · exact (perform_next_cfg hp :)

end Sys2Proof.Machine

/-! The datapaths' steps are the BITWISE step (41_checksum.md R164 to R172): what the invariant's fold rests on. -/

namespace Sys2Proof

/-- The low `w` bits pass `w` bit steps on their own; the others shift down (R135). -/
theorem bitsteps_split (w : Nat) (hw : w ≤ 32) (c : Word) :
    bitsteps w c = bitsteps w ((c.extractLsb' 0 w).setWidth 32) ^^^ (c >>> w) := by
  have hlow : ∀ i < w, (c ^^^ (c.extractLsb' 0 w).setWidth 32).getLsbD i = false := by
    intro i hi
    simp [hi, show i < 32 by omega]
  have hhigh : (c ^^^ (c.extractLsb' 0 w).setWidth 32) >>> w = c >>> w := by
    ext i hi
    simp
  calc bitsteps w c
      = bitsteps w ((c.extractLsb' 0 w).setWidth 32 ^^^ (c ^^^ (c.extractLsb' 0 w).setWidth 32)) := by
        rw [BitVec.xor_comm c, ← BitVec.xor_assoc, BitVec.xor_self, BitVec.zero_xor]
    _ = _ := by rw [bitsteps_xor, bitsteps_shift w _ hlow, hhigh]

/-- Eight bit steps look the low byte up in the base table (R132). -/
theorem bitsteps_eight (c : Word) : bitsteps 8 c = baseEntry (lowByte c) ^^^ (c >>> 8) :=
  bitsteps_split 8 (by decide) c

theorem bitsteps_four (c : Word) : bitsteps 4 c = halfEntry (c.extractLsb' 0 4) ^^^ (c >>> 4) :=
  bitsteps_split 4 (by decide) c

/-- T[k][b] is what b becomes after k + 1 bytes of bit steps (R132, R133, R135). -/
theorem sliceEntry_eq_bitsteps (k : Nat) (b : Byte) : sliceEntry k b = bitsteps (8 * (k + 1)) (b.setWidth 32) := by
  induction k with
  | zero => rfl
  | succ k ih =>
    rw [sliceEntry, BitVec.xor_comm, ← bitsteps_eight, ih, ← bitsteps_add]
    rfl

/-! ## One byte -/

/-- The BYTE step over the base table is the BITWISE step (R165). -/
theorem bytestepTab_baseEntry (c : Word) (d : Byte) : bytestepTab baseEntry c d = bytestepBit c d := by
  have hlow : lowByte (c ^^^ d.setWidth 32) = lowByte c ^^^ d := by
    ext i hi
    simp [lowByte, show i < 32 by omega, BitVec.getLsbD_eq_getElem hi]
  have hhigh : (c ^^^ d.setWidth 32) >>> 8 = c >>> 8 := by
    ext i hi
    simp
  rw [bytestepBit, bitsteps_eight, hlow, hhigh, bytestepTab, BitVec.xor_comm]

theorem nibstep_halfEntry (c : Word) (q : Nibble) : nibstep halfEntry c q = bitsteps 4 (c ^^^ q.setWidth 32) := by
  have hhigh : (c ^^^ q.setWidth 32) >>> 4 = c >>> 4 := by
    ext i hi
    simp
  rw [nibstep, bitsteps_four, hhigh]

/-- The HALFBYTE step over H is the BITWISE step (R167). -/
theorem bytestepHalf_halfEntry (c : Word) (d : Byte) : bytestepHalf halfEntry c d = bytestepBit c d := by
  have hlow : ∀ i < 4, ((d.extractLsb' 4 4).setWidth 32 <<< 4 : Word).getLsbD i = false := by
    intro i hi
    simp [hi]
  have hhigh : ((d.extractLsb' 4 4).setWidth 32 <<< 4 : Word) >>> 4 = (d.extractLsb' 4 4).setWidth 32 := by
    ext i hi
    by_cases h : i < 4
    · simp [h, show 4 + i < 32 by omega]
    · simp [h]
  have hd : (d.setWidth 32 : Word) = (d.extractLsb' 0 4).setWidth 32 ^^^ (d.extractLsb' 4 4).setWidth 32 <<< 4 := by
    ext i hi
    by_cases h : i < 4
    · simp [h]
    · by_cases h8 : i < 8
      · simp [h, show i - 4 < 4 by omega, show 4 + (i - 4) = i by omega]
      · simp [h, show ¬ i - 4 < 4 by omega, BitVec.getLsbD_of_ge d i (by omega)]
  calc bytestepHalf halfEntry c d
      = bitsteps 4 (bitsteps 4 (c ^^^ (d.extractLsb' 0 4).setWidth 32) ^^^ (d.extractLsb' 4 4).setWidth 32) := by
        rw [bytestepHalf, nibstep_halfEntry, nibstep_halfEntry]
    _ = bitsteps 4 (bitsteps 4 (c ^^^ d.setWidth 32)) := by
        rw [hd, ← BitVec.xor_assoc, bitsteps_xor 4 (c ^^^ _), bitsteps_shift 4 _ hlow, hhigh]
    _ = bytestepBit c d := (bitsteps_add 4 4 _).symm

/-! ## Slicing -/

theorem lowByte_ushiftRight (w : Word) (i : Nat) : lowByte (w >>> (8 * i)) = byteOf w i := by
  ext j hj
  simp [lowByte, byteOf]

/-- Eight bit steps look one byte of the word up and take it off; the entry passes the bytes that follow. -/
theorem bitsteps_byteOf (k i : Nat) (w : Word) :
    bitsteps (8 * (k + 1)) (w >>> (8 * i)) = sliceEntry k (byteOf w i) ^^^ bitsteps (8 * k) (w >>> (8 * (i + 1))) := by
  rw [sliceEntry_eq_bitsteps, show 8 * (k + 1) = 8 + 8 * k by omega, bitsteps_add, bitsteps_eight, bitsteps_xor,
    lowByte_ushiftRight, ← BitVec.shiftRight_add, bitsteps_add]
  rfl

/-- Bit steps over four bytes and more look each byte of the word up in its slice table. -/
theorem bitsteps_four_bytes (k : Nat) (w : Word) :
    bitsteps (8 * (k + 4)) w = sliceEntry (k + 3) (byteOf w 0) ^^^ sliceEntry (k + 2) (byteOf w 1) ^^^
      sliceEntry (k + 1) (byteOf w 2) ^^^ sliceEntry k (byteOf w 3) := by
  have hlast : w >>> (8 * (3 + 1)) = 0#32 := BitVec.ushiftRight_eq_zero (by decide)
  have hfirst := bitsteps_byteOf (k + 3) 0 w
  rw [bitsteps_byteOf (k + 2) 1, bitsteps_byteOf (k + 1) 2, bitsteps_byteOf k 3, hlast, bitsteps_of_zero,
    Nat.mul_zero, BitVec.ushiftRight_zero, BitVec.xor_zero] at hfirst
  rw [hfirst, BitVec.xor_assoc, BitVec.xor_assoc]

theorem lowByte_le32 (d0 d1 d2 d3 : Byte) : lowByte (le32 d0 d1 d2 d3) = d0 := by
  ext i hi
  simp [lowByte, le32, show i < 16 by omega, show i < 24 by omega, show i < 32 by omega, hi]

theorem le32_ushiftRight (d0 d1 d2 d3 : Byte) : le32 d0 d1 d2 d3 >>> 8 = le32 d1 d2 d3 0 := by
  ext i hi
  by_cases h : i < 24
  · simp [le32, show 8 + i < 32 by omega, show (8 + i < 16) ↔ i < 8 by omega, show (8 + i < 24) ↔ i < 16 by omega,
      show 8 + i - 16 = i - 8 by omega, show 8 + i - 24 = i - 16 by omega]
  · simp [le32, show ¬ 8 + i < 32 by omega, show ¬ i < 8 by omega, show ¬ i < 16 by omega,
      BitVec.getLsbD_of_ge d1 i (by omega), BitVec.getLsbD_of_ge d2 (i - 8) (by omega),
      BitVec.getLsbD_of_ge d3 (i - 16) (by omega)]

/-- A byte step takes the low byte of a little-endian word off. -/
theorem bitsteps_eight_xor_le32 (c : Word) (d0 d1 d2 d3 : Byte) :
    bitsteps 8 (c ^^^ le32 d0 d1 d2 d3) = bytestepBit c d0 ^^^ le32 d1 d2 d3 0 := by
  have hd : baseEntry d0 = bitsteps 8 (d0.setWidth 32) := rfl
  rw [bitsteps_xor, bitsteps_eight (le32 _ _ _ _), lowByte_le32, le32_ushiftRight, bytestepBit, bitsteps_xor, hd,
    BitVec.xor_assoc]

/-- The first four bytes enter the working CRC little-endian (R169). -/
theorem bitsteps_xor_le32 (c : Word) (d0 d1 d2 d3 : Byte) :
    bitsteps 32 (c ^^^ le32 d0 d1 d2 d3) = [d0, d1, d2, d3].foldl bytestepBit c := by
  have split : ∀ x, bitsteps 32 x = bitsteps 8 (bitsteps 8 (bitsteps 8 (bitsteps 8 x))) := fun _ => rfl
  rw [split, bitsteps_eight_xor_le32, bitsteps_eight_xor_le32, bitsteps_eight_xor_le32, bitsteps_eight_xor_le32,
    show le32 0 0 0 0 = 0#32 from rfl, BitVec.xor_zero]
  rfl

/-- Looking up the later bytes of a group, XORed into what the working CRC has become (R169). -/
theorem foldl_sliceEntry (ds : List Byte) (c : Word) :
    (List.range ds.length).foldl (fun r i => r ^^^ sliceEntry (ds.length - (i + 1)) (ds.getD i 0))
      (bitsteps (8 * ds.length) c) = ds.foldl bytestepBit c := by
  induction ds generalizing c with
  | nil => rfl
  | cons d ds ih =>
    have hstep : bitsteps (8 * (ds.length + 1)) c ^^^ sliceEntry ds.length d =
        bitsteps (8 * ds.length) (bytestepBit c d) := by
      rw [sliceEntry_eq_bitsteps, ← bitsteps_xor, show 8 * (ds.length + 1) = 8 + 8 * ds.length by omega, bitsteps_add]
      rfl
    rw [List.foldl_cons, ← ih, ← hstep, List.length_cons, List.range_succ_eq_map, List.foldl_cons, List.foldl_map]
    simp

/-- A slicing step over the built tables is as many BITWISE steps as the group has bytes, for any group of at least four
(R169). -/
theorem slicestep_sliceEntry (c : Word) (ds : List Byte) (h : 4 ≤ ds.length) :
    slicestep sliceEntry ds.length c ds = ds.foldl bytestepBit c := by
  obtain ⟨d0, d1, d2, d3, rest, rfl⟩ : ∃ d0 d1 d2 d3 rest, ds = d0 :: d1 :: d2 :: d3 :: rest := by
    match ds, h with
    | d0 :: d1 :: d2 :: d3 :: rest, _ => exact ⟨d0, d1, d2, d3, rest, rfl⟩
  have hrest := foldl_sliceEntry rest ([d0, d1, d2, d3].foldl bytestepBit c)
  rw [← bitsteps_xor_le32, ← bitsteps_add, show 32 + 8 * rest.length = 8 * (rest.length + 4) by omega,
    bitsteps_four_bytes, bitsteps_xor_le32] at hrest
  change _ = rest.foldl bytestepBit ([d0, d1, d2, d3].foldl bytestepBit c)
  rw [← hrest]
  have later : ∀ y, ¬ y + 3 + 1 < 4 := fun y => by omega
  simp [slicestep, List.range_succ_eq_map, List.foldl_map, later]

end Sys2Proof

/-! What a step can do, by its effect on the state (10_state.md R48, R50, R260): the acceptance of a word, an engine step,
a change of the host's own records, a register write, a store, a reset. -/

namespace Sys2Proof.Machine

theorem busy_eq_false_iff (s : State) : s.busy = false ↔ s.phase = .idle := by
  unfold State.busy
  cases s.phase <;> simp

/-- A word is accepted with BUSY = 0 only (R48). -/
theorem busy_of_acceptsNext {s : State} {w : Word} (h : s.acceptsNext = some w) : s.busy = false := by
  cases hb : s.busy with
  | false => rfl
  | true => simp [State.acceptsNext, hb] at h

/-- A waiting CMD write is the word accepted next (R48). -/
theorem acceptsNext_of_waiting {s : State} {w : Word} (hb : s.busy = false) (hw : s.waiting = some w) :
    s.acceptsNext = some w := by
  simp [State.acceptsNext, hb, hw]

/-- The system address of a register is its offset in the window (R15, R30). -/
theorem windowOffset_regBase_add (cfg : Config) {off : Nat} (h : off < 256) :
    cfg.windowOffset (cfg.regBase + off) = some off := by
  simp [Config.windowOffset, h]

/-- With none waiting, the CMD write at the head of the schedule is (R48). -/
theorem acceptsNext_of_cmdWrite {s : State} {e : Event} {rest : List Event} {w : Word} (hb : s.busy = false)
    (hw : s.waiting = none) (hq : s.queue = e :: rest) (he : e.IsRegWrite s.cfg offCMD w) : s.acceptsNext = some w := by
  rcases he with rfl | rfl
  · simp [State.acceptsNext, hb, hw, hq]
  · simp [State.acceptsNext, hb, hw, hq, windowOffset_regBase_add s.cfg (off := offCMD) (by decide)]

/-- Every effect of a step that answers a next state. -/
theorem step_effects {s t : State} (h : step s = .next t) :
    (∃ w q, s.acceptsNext = some w ∧ accept w { s with queue := q, waiting := none } = .next t) ∨
    (∃ q, t = State.engineStep { s with queue := q }) ∨
    (∃ q w l, t = { s with queue := q, waiting := w, readLog := l }) ∨
    (∃ e rest off v, s.waiting = none ∧ s.queue = e :: rest ∧ e.IsRegWrite s.cfg off v ∧
      t = State.regWrite { s with queue := rest } off v) ∨
    (∃ q addr b, addr < s.cfg.space ∧ t = State.storeByte { s with queue := q } addr b) ∨
    (∃ rest, s.queue = .reset :: rest ∧ t = State.hardReset { s with queue := rest }) := by
  rcases step_cases h with ⟨_, _, rfl⟩ | ⟨_, _, _, _, _, _, rfl⟩ | ⟨w, hw, hb, ha⟩ | ⟨e, rest, hq, hw, hp⟩
  · exact .inr (.inl ⟨s.queue, rfl⟩)
  · exact .inr (.inl ⟨s.queue, rfl⟩)
  · exact .inl ⟨w, s.queue, acceptsNext_of_waiting hb hw, ha⟩
  · have noneWaits : ∀ {off v}, e.IsRegWrite s.cfg off v → s.waiting = none := fun he =>
      hw.resolve_right fun h => by simp [he.isHostAccess] at h
    rcases perform_cases hp with
      ⟨v, _, rfl⟩ | ⟨_, _, rfl⟩ | ⟨_, rfl⟩ | ⟨off, v, he, _, rfl⟩ | ⟨v, _, _, rfl⟩ | ⟨v, he, hb, ha⟩ |
      ⟨_, addr, b, _, hs, rfl⟩ | ⟨_, rfl⟩ | ⟨rfl, rfl⟩
    · exact .inr (.inr (.inl ⟨_, _, _, rfl⟩))
    · exact .inr (.inr (.inl ⟨_, _, _, rfl⟩))
    · exact .inr (.inr (.inl ⟨_, _, _, rfl⟩))
    · exact .inr (.inr (.inr (.inl ⟨e, rest, off, v, noneWaits he, hq, he, rfl⟩)))
    · exact .inr (.inr (.inl ⟨_, _, _, rfl⟩))
    · refine .inl ⟨v, rest, acceptsNext_of_cmdWrite hb (noneWaits he) hq he, ?_⟩
      rw [← noneWaits he]
      exact ha
    · exact .inr (.inr (.inr (.inr (.inl ⟨rest, addr, b, hs, rfl⟩))))
    · exact .inr (.inl ⟨rest, rfl⟩)
    · exact .inr (.inr (.inr (.inr (.inr ⟨rest, hq, rfl⟩))))

end Sys2Proof.Machine

/-! The invariant, operation by operation. -/

namespace Sys2Proof.Machine

/-! ## Updates the invariant does not see -/

/-- The invariant speaks of none of PREV, LEN, PFD and RESULT, nor of the schedule, the waiting write, the values read
and the free counter. -/
theorem Inv.update {s : State} (h : Inv s) {prev result lenLo lenHi pfdLo pfdHi : Word} {waiting : Option Word}
    {queue : List Event} {readLog : List Word} {free : Nat} :
    Inv { s with
      prev := prev, result := result, lenLo := lenLo, lenHi := lenHi, pfdLo := pfdLo, pfdHi := pfdHi,
      waiting := waiting, queue := queue, readLog := readLog, free := free } :=
  { h with
    shape := { h.shape with }
    building := fun hp => { h.building hp with }
    running := fun hp => { h.running hp with } }

/-! ## Acceptance -/

/-- A strategy that needs tables has slice tables, or the half-byte table alone (R17, R37). -/
theorem needsTables_cases (st : Strategy) (h : st.needsTables = true) :
    0 < st.nslices ∨ 0 = st.nslices ∧ st.hasHalf = true := by
  cases st <;> simp_all [Strategy.needsTables, Strategy.nslices, Strategy.hasHalf]

/-- A build that has written nothing is in place (R138, R251). -/
theorem builderInRange_of_start {s : State} (h : s.cfg.strategy.needsTables = true) (hk : s.bk = 0) (hi : s.bi = 0) :
    s.builderInRange := by
  rw [State.builderInRange, hk, hi]
  rcases needsTables_cases _ h with hn | ⟨hn, hh⟩
  · exact .inl ⟨hn, by decide⟩
  · exact .inr ⟨hn, hh, by decide⟩

theorem needsTables_of_builds {cfg : Config} (h : cfg.builds = true) : cfg.strategy.needsTables = true := by
  simp only [Config.builds, Bool.and_eq_true] at h
  exact h.1

theorem Inv.clearErrors {s : State} (h : Inv s) : Inv s.clearErrors :=
  { h with
    oneError := by simp
    busyNoError := fun _ => by simp
    shape := { h.shape with }
    building := fun hp => { h.building hp with }
    running := fun hp => { h.running hp with } }

/-- BUILD starts with TVALID = 0 and no entry written (R138). -/
theorem Inv.startBuild {s : State} (h : Inv s) (hb : s.cfg.builds = true) :
    Inv { s.clearErrors with tvalid := false, phase := .building, bk := 0, bi := 0 } :=
  { h with
    oneError := by simp
    busyNoError := fun _ => by simp
    shape := { h.shape with }
    tablesValid := fun hv => by simp at hv
    tvalidAlways := fun hn => absurd (hb.symm.trans hn) (by decide)
    building := fun _ =>
      { builds := hb
        tvalid := rfl
        place := builderInRange_of_start (needsTables_of_builds hb) rfl rfl
        slices := fun k _ b _ hlt => by simp at hlt
        half := fun _ q _ hq => by simp at hq }
    running := fun hr => by simp at hr }

section Idle

variable {s : State} (h : Inv s) (hp : s.phase = .idle)
include h hp

/-- An idle state of the invariant keeps it under any change of the error bits that does not set both. -/
theorem Inv.setErrors_of_idle {ill berr : Bool} (he : ¬ (ill = true ∧ berr = true)) :
    Inv { s with ill := ill, berr := berr } :=
  { h with
    oneError := he
    busyNoError := fun hn => absurd hp hn
    shape := { h.shape with }
    building := fun hb => absurd (hp.symm.trans hb) (by decide)
    running := fun hr => absurd (hp.symm.trans hr) (by decide) }

theorem Inv.illegalWord : Inv s.illegalWord :=
  h.setErrors_of_idle hp (by simp)

/-- The latches are written while IDLE, and the record of the port begins anew (R46, R160, R200). -/
theorem Inv.latch : Inv s.latch :=
  { h with
    shape := { h.shape with }
    building := fun hb => absurd (hp.symm.trans hb) (by decide)
    running := fun hr => absurd (hp.symm.trans hr) (by decide)
    readsInOrder := rfl
    readsInside := Nat.zero_le _
    hintsInside := fun _ hm => by simp at hm
    hintsOnlyPf := fun _ => rfl
    racedRecorded := fun _ => rfl }

theorem Inv.latchPf : Inv s.latchPf :=
  { h.latch hp with
    shape := { h.shape with }
    building := fun hb => absurd (hp.symm.trans hb) (by decide)
    running := fun hr => absurd (hp.symm.trans hr) (by decide)
    hintsOnlyPf := fun _ => rfl }

/-- After the latching the fold begins with no byte consumed, or the range check fails (R160, R222). -/
theorem Inv.startFold (he : s.ill = false ∧ s.berr = false) (hr : s.reads = []) : Inv s.startFold := by
  rcases startFold_cases s with ⟨hfit, ht⟩ | ⟨_, ht⟩
  · rw [ht]
    exact
      { h with
        busyNoError := fun _ => he
        shape := { h.shape with }
        building := fun hb => by simp at hb
        running := fun _ =>
          { range := hfit
            place := rfl
            start := le_refl _
            datapath := rfl
            reads := by simp [hr]
            folded := fun _ => by simp [Memory.bytes] } }
  · rw [ht]
    exact h.setErrors_of_idle hp (by simp [he.1])

end Idle

/-- The acceptance step of a command, taken while IDLE, keeps the invariant. -/
theorem Inv.exec {i : Instr} {s t : State} (h : Inv s) (hp : s.phase = .idle) (hx : exec i s = .next t) : Inv t := by
  have hc : Inv s.clearErrors := h.clearErrors
  have hpc : s.clearErrors.phase = .idle := hp
  rcases exec_cases i s with
    ⟨_, e⟩ | ⟨_, hb, e⟩ | ⟨_, _, e⟩ | ⟨_, e⟩ | ⟨_, e⟩ | ⟨_, _, e⟩ | ⟨_, e⟩ <;> cases e.symm.trans hx
  · exact hc
  · exact h.startBuild hb
  · exact hc
  · exact (hc.latch hpc).startFold hpc ⟨rfl, rfl⟩ rfl
  · exact (hc.latchPf hpc).startFold hpc ⟨rfl, rfl⟩ rfl
  · exact hc.update
  · exact h.illegalWord hp

/-- So does the acceptance step of any word, legal or ILLEGAL (R110). -/
theorem Inv.accept {w : Word} {s t : State} (h : Inv s) (hp : s.phase = .idle) (ha : accept w s = .next t) : Inv t := by
  rcases accept_cases w s with ⟨i, _, e⟩ | ⟨_, _, e⟩
  · exact h.exec hp (e.symm.trans ha)
  · cases e.symm.trans ha
    exact h.illegalWord hp

/-! ## The build phase -/

theorem tableEntry_ofNat (s : State) (k : Nat) {b : Nat} (hb : b < 256) :
    s.tableEntry k (BitVec.ofNat 8 b) = (s.tables.getD k []).getD b 0 := by
  rw [State.tableEntry, BitVec.toNat_ofNat, Nat.mod_eq_of_lt (by omega)]

theorem halfTableEntry_ofNat (s : State) {q : Nat} (hq : q < 16) :
    s.halfTableEntry (BitVec.ofNat 4 q) = s.half.getD q 0 := by
  rw [State.halfTableEntry, BitVec.toNat_ofNat, Nat.mod_eq_of_lt (by omega)]

/-- The builder's value of T[k][b] is the entry's once T[0] and T[k−1] hold theirs (R132, R133). -/
theorem builderValue_eq (s : State) (k : Nat) (b : Byte)
    (hbuilt : ∀ j < k, ∀ x : Byte, s.tableEntry j x = sliceEntry j x) : s.builderValue k b = sliceEntry k b := by
  cases k with
  | zero => rfl
  | succ k =>
    rw [State.builderValue, if_neg (by omega), Nat.add_sub_cancel, hbuilt k (by omega), hbuilt 0 (by omega)]
    rfl

theorem State.TableShape.row_length {s : State} (h : s.TableShape) {k : Nat} (hk : k < s.cfg.strategy.nslices) :
    (s.tables.getD k []).length = 256 := by
  have hk' : k < s.tables.length := by rwa [h.slices]
  rw [List.getD_eq_getElem _ _ hk']
  exact h.rows _ (List.getElem_mem hk')

theorem State.TableShape.setTableEntry {s : State} (h : s.TableShape) {k : Nat} (hk : k < s.cfg.strategy.nslices)
    (b : Nat) (v : Word) : (s.setTableEntry k b v).TableShape where
  slices := by simpa using h.slices
  rows := by
    intro row hm
    rcases List.mem_or_eq_of_mem_set hm with hm | rfl
    · exact h.rows row hm
    · rw [List.length_set, h.row_length hk]
  half := h.half

theorem State.TableShape.setHalfEntry {s : State} (h : s.TableShape) (q : Nat) (v : Word) :
    (s.setHalfEntry q v).TableShape :=
  { h with half := by simpa using h.half }

/-- The step that ends the build phase has every entry at its value (R136). -/
theorem Inv.build_ends {s : State} (h : Inv s) {tables : List (List Word)} {half : List Word}
    (shape : State.TableShape { s with tables := tables, half := half })
    (slices : ∀ k < s.cfg.strategy.nslices, ∀ b < 256,
      State.tableEntry { s with tables := tables, half := half } k (BitVec.ofNat 8 b) = sliceEntry k (BitVec.ofNat 8 b))
    (halves : s.cfg.strategy.hasHalf = true → ∀ q < 16,
      State.halfTableEntry { s with tables := tables, half := half } (BitVec.ofNat 4 q) =
        halfEntry (BitVec.ofNat 4 q)) :
    Inv (State.endBuild { s with tables := tables, half := half }) :=
  { h with
    busyNoError := fun hn => absurd rfl hn
    shape := { shape with }
    tablesValid := fun _ =>
      ⟨tables_ext _ _ shape.slices shape.rows fun k hk b hb =>
          (tableEntry_ofNat _ k hb).symm.trans (slices k hk b hb),
        half_ext _ _ shape.half fun hh q hq => (halfTableEntry_ofNat _ hq).symm.trans (halves hh q hq)⟩
    tvalidAlways := fun _ => rfl
    building := fun hb => by simp at hb
    running := fun hr => by simp at hr }

section Build

variable {s : State} (h : Inv s) (hp : s.phase = .building)
include h hp

/-- A step of the build phase that goes on. -/
theorem Inv.build_continues {tables : List (List Word)} {half : List Word} {bk bi : Nat}
    (shape : State.TableShape { s with tables := tables, half := half, bk := bk, bi := bi })
    (place : State.builderInRange { s with tables := tables, half := half, bk := bk, bi := bi })
    (slices : State.slicesBuiltSoFar { s with tables := tables, half := half, bk := bk, bi := bi })
    (halves : State.halfBuiltSoFar { s with tables := tables, half := half, bk := bk, bi := bi }) :
    Inv { s with tables := tables, half := half, bk := bk, bi := bi } :=
  { h with
    shape := shape
    tablesValid := fun hv => by simp [(h.building hp).tvalid] at hv
    building := fun _ => { h.building hp with place := place, slices := slices, half := halves }
    running := fun hr => absurd (hp.symm.trans hr) (by decide) }

/-- After the builder has written a slice table entry, every entry up to it holds its value. -/
theorem slices_after_setTableEntry (hk : s.bk < s.cfg.strategy.nslices) (k : Nat) (hkn : k < s.cfg.strategy.nslices)
    (b : Nat) (hb : b < 256) (hle : k < s.bk ∨ (k = s.bk ∧ b ≤ s.bi)) :
    (s.setTableEntry s.bk s.bi (s.builderValue s.bk (BitVec.ofNat 8 s.bi))).tableEntry k (BitVec.ofNat 8 b) =
      sliceEntry k (BitVec.ofNat 8 b) := by
  have hs := h.building hp
  have hbi : s.bi < 256 := by
    rcases hs.place with ⟨_, hi⟩ | ⟨_, _, hi⟩ <;> omega
  have hbuilt : ∀ j < s.bk, ∀ x : Byte, s.tableEntry j x = sliceEntry j x := fun j hj x => by
    simpa using hs.slices j (by omega) x.toNat x.isLt (.inl hj)
  rw [builderValue_eq s s.bk _ hbuilt, tableEntry_setTableEntry s _ _ _ _ _ (by rwa [h.shape.slices])
    (by rwa [h.shape.row_length hk]), BitVec.toNat_ofNat, Nat.mod_eq_of_lt (by omega)]
  split
  · rename_i e
    rw [e.1, e.2]
  · exact hs.slices k hkn b hb (by omega)

/-- And after it has written a half-byte table entry. -/
theorem half_after_setHalfEntry (hk : s.bk = s.cfg.strategy.nslices) (hh : s.cfg.strategy.hasHalf = true)
    (hi : s.bi < 16) (q : Nat) (hq : q < 16) (hle : q ≤ s.bi) :
    (s.setHalfEntry s.bi (halfEntry (BitVec.ofNat 4 s.bi))).halfTableEntry (BitVec.ofNat 4 q) =
      halfEntry (BitVec.ofNat 4 q) := by
  rw [halfTableEntry_setHalfEntry s _ _ _ (by rwa [h.shape.half, if_pos hh]), BitVec.toNat_ofNat,
    Nat.mod_eq_of_lt (by omega)]
  split
  · rename_i e
    rw [e]
  · exact (h.building hp).half hk q hq (by omega)

/-- A step of the build phase keeps the invariant: the entry it writes has its value, and the last one ends the phase
(R136). -/
theorem Inv.buildStep : Inv s.buildStep := by
  have hs := h.building hp
  have hslice := slices_after_setTableEntry h hp
  have hhalf := half_after_setHalfEntry h hp
  have hplace := hs.place
  unfold State.builderInRange at hplace
  rcases buildStep_cases s with ⟨hk, hi, e⟩ | ⟨hk, hi, hmore, e⟩ | ⟨hk, hi, hlast, hh, e⟩ | ⟨hk, hh, hi, e⟩ |
    ⟨hk, hh, hi, e⟩ | ⟨hk, hh, e⟩ <;> rw [e]
  · exact h.build_continues hp { h.shape.setTableEntry hk s.bi _ with }
      (.inl ⟨hk, Nat.succ_lt_succ hi⟩)
      (fun k hkn b hb hlt => hslice hk k hkn b hb (hlt.imp_right fun ⟨e, hl⟩ => ⟨e, Nat.le_of_lt_succ hl⟩))
      (fun hbk => absurd hbk (Nat.ne_of_lt hk))
  · refine h.build_continues hp { h.shape.setTableEntry hk s.bi _ with } ?_
      (fun k hkn b hb hlt => hslice hk k hkn b hb ?_) (fun _ q _ hq => absurd hq (Nat.not_lt_zero q))
    · by_cases hn : s.bk + 1 < s.cfg.strategy.nslices
      · exact .inl ⟨hn, Nat.zero_lt_succ _⟩
      · exact .inr ⟨Nat.le_antisymm hk (Nat.not_lt.1 hn), hmore.resolve_left hn, Nat.zero_lt_succ _⟩
    · rcases hlt with hl | ⟨_, hl⟩
      · exact (Nat.lt_succ_iff_lt_or_eq.1 hl).imp_right fun e => ⟨e, by omega⟩
      · exact absurd hl (Nat.not_lt_zero b)
  · exact h.build_ends { h.shape.setTableEntry hk s.bi _ with }
      (fun k hkn b hb => hslice hk k hkn b hb (by omega)) (fun hh' => by simp [hh] at hh')
  · have hbk : s.bk = s.cfg.strategy.nslices := by omega
    exact h.build_continues hp { h.shape.setHalfEntry s.bi _ with } (.inr ⟨hbk, hh, Nat.succ_lt_succ hi⟩)
      (fun k hkn b hb _ => hs.slices k hkn b hb (.inl (hkn.trans_eq hbk.symm)))
      (fun _ q hq hlt => hhalf hbk hh (by omega) q hq (Nat.le_of_lt_succ hlt))
  · have hbk : s.bk = s.cfg.strategy.nslices := by omega
    exact h.build_ends { h.shape.setHalfEntry s.bi _ with }
      (fun k hkn b hb => hs.slices k hkn b hb (.inl (by omega))) (fun _ q hq => hhalf hbk hh (by omega) q hq (by omega))
  · rcases hplace with ⟨hlt, _⟩ | ⟨_, hh', _⟩
    · omega
    · simp [hh] at hh'

end Build

end Sys2Proof.Machine

/-! The invariant along a running command, a store, a register write and a reset; its obligations. -/

namespace Sys2Proof.Machine

/-! ## A running command -/

/-- A slicing datapath folds groups of as many bytes as it has slice tables (R17, R169, R174). -/
theorem slicing_groupSize (st : Strategy) (h : 1 < st.groupSize) : st.nslices = st.groupSize ∧ 4 ≤ st.groupSize := by
  cases st <;> simp_all [Strategy.groupSize, Strategy.nslices]

/-- A slicing step looks up the tables below its group size only. -/
theorem slicestep_congr {t u : Nat → Byte → Word} (N : Nat) (h : ∀ k < N, ∀ b, t k b = u k b) (c : Word)
    (ds : List Byte) : slicestep t N c ds = slicestep u N c ds := by
  refine List.foldl_ext _ _ _ fun r i hi => ?_
  have hi := List.mem_range.1 hi
  rw [h _ (by omega)]

/-- A CRC sends no hint, nor does an engine with PF_IMPL = 0 (R204, R206). -/
theorem stepHints_eq_nil {s : State} (h : s.pfOn = false ∨ s.cfg.pfImpl = false) : s.stepHints = [] := by
  rcases h with h | h <;> simp [State.stepHints, h]

theorem portStep_hintsOnlyPf {s : State} (h : Inv s)
    (hpf : s.pfOn = false ∨ s.cfg.pfImpl = false) : s.portStep.hints = [] := by
  rw [(portStep_fields s).2.1, stepHints_eq_nil hpf, h.hintsOnlyPf hpf]
  rfl

theorem Inv.complete {s : State} (h : Inv s) : Inv s.complete :=
  { h with
    busyNoError := fun hn => absurd rfl hn
    shape := { h.shape with }
    building := fun hb => by simp at hb
    running := fun hr => by simp at hr }

section Running

variable {s : State} (h : Inv s) (hp : s.phase = .running)
include h hp

/-- The slice tables that a running command's datapath reads hold their values (R54, R162). -/
theorem running_tableEntry {k : Nat} (hk : k < s.dp.nslices) (b : Byte) : s.tableEntry k b = sliceEntry k b := by
  have hdp := (h.running hp).datapath
  cases hv : s.tvalid with
  | false => simp [hdp, hv, Strategy.nslices] at hk
  | true =>
    rw [hdp, if_pos hv] at hk
    exact tableEntry_built s (h.tablesValid hv).1 k hk b

theorem running_halfTableEntry (hh : s.dp.hasHalf = true) (q : Nibble) : s.halfTableEntry q = halfEntry q := by
  have hdp := (h.running hp).datapath
  cases hv : s.tvalid with
  | false => simp [hdp, hv, Strategy.hasHalf] at hh
  | true =>
    rw [hdp, if_pos hv] at hh
    exact halfTableEntry_built s (h.tablesValid hv).2 hh q

/-- The one-byte step of every datapath is the BITWISE step (R164 to R167, R174). -/
theorem running_byteStep : s.byteStep = bytestepBit := by
  have hbase : 0 < s.dp.nslices → s.tableEntry 0 = baseEntry := fun hk => funext (running_tableEntry h hp hk)
  have hhalf : s.dp.hasHalf = true → s.halfTableEntry = halfEntry := fun hh => funext (running_halfTableEntry h hp hh)
  funext c d
  unfold State.byteStep
  cases hd : s.dp <;> simp only [hd] at hbase hhalf ⊢
  case halfbyte => rw [hhalf rfl, bytestepHalf_halfEntry]
  case tableless => exact bytestepTab_baseEntry c d
  case byte | slice4 | slice8 | slice16 => rw [hbase (by decide), bytestepTab_baseEntry]

/-- Whatever the datapath, the bytes of a step are folded as the BITWISE step folds them (R168, R169, R173, R174). -/
theorem running_foldBytes (ds : List Byte) : s.foldBytes ds = ds.foldl bytestepBit s.c := by
  unfold State.foldBytes
  split
  · rename_i hg
    obtain ⟨hslicing, hlen⟩ := hg
    obtain ⟨hn, hfour⟩ := slicing_groupSize s.dp hslicing
    rw [slicestep_congr _ (fun k hk b => running_tableEntry h hp (by omega) b), ← hlen,
      slicestep_sliceEntry _ _ (by omega)]
  · rw [running_byteStep h hp]

/-- The addresses a datapath step puts on the port follow those on the record, inside the buffer (R73). -/
theorem portStep_reads (hr : s.rem ≠ 0) :
    s.portStep.reads = List.range' s.a.toNat s.portStep.reads.length ∧ s.portStep.reads.length ≤ s.n.toNat := by
  obtain ⟨_, hplace, hstart, _, hreads, _⟩ := h.running hp
  obtain ⟨j, hj, hmade⟩ := readsMade_eq s s.cur s.stepSize
  have hstep := stepSize_le s hr
  have hcur : s.cur = s.a.toNat + s.reads.length := by omega
  have hall : s.portStep.reads = List.range' s.a.toNat (s.reads.length + j) := by
    rw [(portStep_fields s).1, hmade, hcur]
    nth_rw 1 [h.readsInOrder]
    exact List.range'_append_1
  rw [hall, List.length_range']
  exact ⟨rfl, by omega⟩

/-- A hint lies in the buffer: only a group of 16 bytes inside it has one (R200, R201). -/
theorem stepHints_inside (x : Nat) (hx : x ∈ s.stepHints) : s.a.toNat ≤ x ∧ x < s.a.toNat + s.n.toNat := by
  have hstart := (h.running hp).start
  unfold State.stepHints at hx
  split at hx
  · rename_i hsent
    have hgroup : (s.cur - s.a.toNat) / 16 < s.n.toNat / 16 := by
      simp only [Bool.and_eq_true, State.atGroupStart, decide_eq_true_eq] at hsent
      obtain ⟨⟨_, _, hgroup⟩, _⟩ := hsent
      exact hgroup
    split at hx
    · simp only [List.mem_singleton] at hx
      omega
    · split at hx
      · simp only [List.mem_singleton] at hx
        omega
      · simp at hx
  · simp at hx

theorem portStep_hintsInside (x : Nat) (hx : x ∈ s.portStep.hints) : s.a.toNat ≤ x ∧ x < s.a.toNat + s.n.toNat := by
  rw [(portStep_fields s).2.1] at hx
  rcases List.mem_append.1 hx with hx | hx
  · exact stepHints_inside h hp x hx
  · exact h.hintsInside x hx

/-- A bus error sets BERR, with ILL = 0 since the word that started the command (R223). -/
theorem Inv.busError_portStep (hr : s.rem ≠ 0) : Inv s.portStep.busError :=
  { h with
    oneError := fun he => by simp [(h.busyNoError (by simp [hp])).1] at he
    busyNoError := fun hn => absurd rfl hn
    shape := { h.shape with }
    building := fun hb => by simp at hb
    running := fun hr => by simp at hr
    readsInOrder := (portStep_reads h hp hr).1
    readsInside := (portStep_reads h hp hr).2
    hintsInside := portStep_hintsInside h hp
    hintsOnlyPf := portStep_hintsOnlyPf h }

/-- A datapath step whose bytes answer advances cur over them, and its fold is the BITWISE one (R164 to R175). -/
theorem Inv.datapathStep (hr : s.rem ≠ 0) {ds : List Byte} (hg : s.readGroup s.cur s.stepSize = some ds) :
    Inv { s.portStep with c := s.foldBytes ds, cur := s.cur + s.stepSize, rem := s.rem - s.stepSize } := by
  have hrun := h.running hp
  have hstep := stepSize_le s hr
  have hanswers : bufferAnswers s.cfg s.cur s.stepSize := (readGroup_isSome s _ _).1 (by simp [hg])
  have hfold : s.raced = [] → s.foldBytes ds =
      (s.mem.bytes s.a.toNat (s.cur + s.stepSize - s.a.toNat)).foldl bytestepBit (~~~ s.p) := fun hraced => by
    have hds : ds = s.mem.bytes s.cur s.stepSize := by
      simpa [hg] using readGroup_of_answers s hraced _ _ hanswers
    have hcur : s.a.toNat + (s.cur - s.a.toNat) = s.cur := by have := hrun.start; omega
    rw [running_foldBytes h hp, Nat.sub_add_comm hrun.start, memory_bytes_append, List.foldl_append,
      ← hrun.folded hraced, hcur, hds]
  exact
    { h with
      shape := { h.shape with }
      building := fun hb => absurd (hp.symm.trans hb) (by decide)
      running := fun _ =>
        { hrun with
          place := by have := hrun.place; simp; omega
          start := by have := hrun.start; simp; omega
          reads := by
            have := hrun.reads
            have := hrun.start
            simp [readsMade_of_answers s _ _ hanswers]
            omega
          folded := hfold }
      readsInOrder := (portStep_reads h hp hr).1
      readsInside := (portStep_reads h hp hr).2
      hintsInside := portStep_hintsInside h hp
      hintsOnlyPf := portStep_hintsOnlyPf h }

end Running

/-- An engine step keeps the invariant. -/
theorem Inv.engineStep {s : State} (h : Inv s) : Inv s.engineStep := by
  rcases engineStep_cases s with ⟨_, e⟩ | ⟨hp, e⟩ | ⟨hp, _, e⟩ | ⟨hp, hr, _, e⟩ | ⟨ds, hp, hr, hg, e⟩ <;> rw [e]
  · exact h
  · exact h.buildStep hp
  · exact h.complete
  · exact h.busError_portStep hp hr
  · exact h.datapathStep hp hr hg

/-! ## The host's own updates -/

/-- A store outside the bytes consumed leaves the fold; one into a running buffer is on the record (R224). -/
theorem Inv.storeByte {s : State} (h : Inv s) {addr : Nat} (ha : addr < s.cfg.space) (b : Byte) :
    Inv (s.storeByte addr b) := by
  have hcanonical := memory_write_wf s.mem h.memCanonical addr b
  have hspace : ∀ e ∈ s.mem.write addr b, e.1 < s.cfg.space := fun e he =>
    (memory_write_addresses s.mem addr b e he).elim (fun e => e ▸ ha) (h.memSpace e)
  rcases storeByte_cases s addr b with ⟨_, e⟩ | ⟨hout, e⟩ <;> rw [e]
  · exact
      { h with
        memCanonical := hcanonical
        memSpace := hspace
        shape := { h.shape with }
        building := fun hp => { h.building hp with }
        running := fun hp => { h.running hp with folded := fun hr => by simp at hr }
        racedRecorded := fun hm => by simp at hm }
  · exact
      { h with
        memCanonical := hcanonical
        memSpace := hspace
        shape := { h.shape with }
        building := fun hp => { h.building hp with }
        running := fun hp =>
          { h.running hp with
            folded := fun hr => by
              have hp : s.phase = .running := hp
              have hplace := (h.running hp).place
              refine ((h.running hp).folded hr).trans ?_
              rw [memory_bytes_congr s.mem (s.mem.write addr b) _ _ fun i hi => ?_]
              rw [memory_read_write s.mem h.memCanonical, if_neg]
              exact fun hx => hout ⟨hp, by omega, by omega⟩ } }

/-- A 64-bit value is below 2^AW exactly when its bits from AW up are 0 (R42). -/
theorem toNat_lt_space_iff (cfg : Config) (x : DWord) :
    x.toNat < cfg.space ↔ ∀ i, cfg.aw ≤ i → x.getLsbD i = false :=
  ⟨fun h _ hi => Nat.testBit_lt_two_pow (Nat.lt_of_lt_of_le h (Nat.pow_le_pow_right (by decide) hi)),
    fun h => Nat.lt_pow_two_of_testBit _ h⟩

/-- The bits of ADDR from AW up are hardwired to 0 in both halves (R42). -/
theorem regWrite_addr_lt_space {s : State} (h : s.addr.toNat < s.cfg.space) (off : Nat) (v : Word) :
    (s.regWrite off v).addr.toNat < s.cfg.space := by
  rw [toNat_lt_space_iff] at h ⊢
  intro i hi
  have hbit := h i hi
  rcases regWrite_cases s off v with ⟨_, e⟩ | ⟨_, e⟩ | ⟨_, e⟩ | ⟨_, e⟩ | ⟨_, e⟩ | ⟨_, e⟩ | ⟨_, e⟩ | e <;> rw [e]
  case inr.inl | inr.inr.inl =>
    simp only [State.addr, BitVec.getLsbD_append, BitVec.getLsbD_and, addrMaskLo_getLsbD, addrMaskHi_getLsbD] at hbit ⊢
    by_cases hlow : i < 32 <;> simp_all
  all_goals exact hbit

theorem Inv.setAddr {s : State} (h : Inv s) {lo hi : Word}
    (ha : (State.addr { s with addrLo := lo, addrHi := hi }).toNat < s.cfg.space) :
    Inv { s with addrLo := lo, addrHi := hi } :=
  { h with
    addrHardwired := ha
    shape := { h.shape with }
    building := fun hp => { h.building hp with }
    running := fun hp => { h.running hp with } }

theorem Inv.regWrite {s : State} (h : Inv s) (off : Nat) (v : Word) : Inv (s.regWrite off v) := by
  have ha := regWrite_addr_lt_space h.addrHardwired off v
  rcases regWrite_cases s off v with ⟨_, e⟩ | ⟨_, e⟩ | ⟨_, e⟩ | ⟨_, e⟩ | ⟨_, e⟩ | ⟨_, e⟩ | ⟨_, e⟩ | e <;> rw [e] at ha ⊢
  · exact h.update
  · exact h.setAddr ha
  · exact h.setAddr ha
  · exact h.update
  · exact h.update
  · exact h.update
  · exact h.update
  · exact h

/-! ## Reset -/

/-- The tables after reset have their size, and their values where TVALID = 1 (R53, R55). -/
theorem launch_shape (cfg : Config) (mem : Memory) : (State.launch cfg mem).TableShape := by
  by_cases hrom : cfg.tableInit = .rom
  · exact
      { slices := by simp [State.launch, hrom, builtTables_length]
        rows := by simpa [State.launch, hrom] using builtTables_rows cfg
        half := by simp [State.launch, hrom, builtHalf_length] }
  · exact
      { slices := by simp [State.launch, hrom, blankTables_length]
        rows := by simpa [State.launch, hrom] using blankTables_rows cfg
        half := by simp [State.launch, hrom, blankHalf_length] }

theorem launch_tablesValid (cfg : Config) (mem : Memory) (hv : (State.launch cfg mem).tvalid = true) :
    (State.launch cfg mem).tables = builtTables cfg ∧ (State.launch cfg mem).half = builtHalf cfg := by
  by_cases hrom : cfg.tableInit = .rom
  · simp [State.launch, hrom]
  · have hn : cfg.strategy.needsTables = false := by simpa [State.launch, Config.resetTvalid, hrom] using hv
    have hempty : cfg.strategy.nslices = 0 ∧ cfg.strategy.hasHalf = false := by
      revert hn
      cases cfg.strategy <;> decide
    simp [State.launch, hrom, blankTables, builtTables, blankHalf, builtHalf, hempty]

/-- Right after a launch the invariant holds (R55, R251). -/
theorem inv_launch {cfg : Config} {mem : Memory} (hc : cfg.wf = true) (hm : mem.wf = true)
    (hs : ∀ e ∈ mem, e.1 < cfg.space) : Inv (State.launch cfg mem) where
  cfg := hc
  memCanonical := hm
  memSpace := hs
  addrHardwired := by simp [State.launch, State.addr, Config.space]
  oneError := by simp [State.launch]
  busyNoError := fun _ => ⟨rfl, rfl⟩
  shape := launch_shape cfg mem
  tablesValid := launch_tablesValid cfg mem
  tvalidAlways := fun hb => by
    cases hn : cfg.strategy.needsTables <;> simp_all [State.launch, Config.builds, Config.resetTvalid]
  building := fun hp => by
    have hb : cfg.resetBuilds = true := by
      by_contra hn
      simp [State.launch, hn] at hp
    obtain ⟨hn, ha⟩ : cfg.strategy.needsTables = true ∧ cfg.tableInit = .auto := by
      simpa [Config.resetBuilds] using hb
    exact
      { builds := by simp [State.launch, Config.builds, hn, ha]
        tvalid := by simp [State.launch, Config.resetTvalid, hn, ha]
        place := builderInRange_of_start hn rfl rfl
        slices := fun k _ b _ hlt => by simp [State.launch] at hlt
        half := fun _ q _ hq => absurd hq (Nat.not_lt_zero q) }
  running := fun hp => by
    simp only [State.launch] at hp
    split at hp <;> cases hp
  readsInOrder := rfl
  readsInside := Nat.zero_le _
  hintsInside := fun _ hm => absurd hm List.not_mem_nil
  hintsOnlyPf := fun _ => rfl
  racedRecorded := fun _ => rfl

/-- A reset starts from the launch state with the memory it finds (R252). -/
theorem Inv.hardReset {s : State} (h : Inv s) : Inv s.hardReset := by
  have hl := inv_launch h.cfg h.memCanonical h.memSpace
  exact
    { hl with
      shape := { hl.shape with }
      building := fun hp => { hl.building hp with }
      running := fun hp => { hl.running hp with }
      racedRecorded := fun _ => rfl }

/-! ## The statements -/

/-- Settles O46, by the effects of a step: each is an operation that keeps the invariant. -/
theorem stepKeepsTheInvariant : Obligations.StepKeepsTheInvariant := by
  intro s t h hs
  rcases step_effects hs with
    ⟨w, q, hw, ha⟩ | ⟨q, rfl⟩ | ⟨_, _, _, rfl⟩ | ⟨_, _, off, v, _, _, _, rfl⟩ | ⟨q, _, b, hb, rfl⟩ | ⟨_, _, rfl⟩
  · exact Inv.accept (h.update (waiting := none) (queue := q)) ((busy_eq_false_iff s).1 (busy_of_acceptsNext hw)) ha
  · exact Inv.engineStep h.update
  · exact h.update
  · exact Inv.regWrite h.update off v
  · exact Inv.storeByte (h.update (queue := q)) hb b
  · exact Inv.hardReset h.update

/-- Settles O45. -/
theorem launchHasTheInvariant : Obligations.LaunchHasTheInvariant := by
  intro cfg mem hc hm hs
  exact inv_launch hc hm hs

/-- Settles O44: the default configuration and the empty memory are admitted. -/
theorem resetHasTheInvariant : Obligations.ResetHasTheInvariant :=
  inv_launch (by decide) rfl (by simp)

end Sys2Proof.Machine

/-! The register window (10_state.md R30 to R45): what a read returns after a write, the fields of STATUS and CFG, and
which accesses a step performs. -/

namespace Sys2Proof.Machine

/-! ## Reading and writing registers -/

/-- Which register each offset reads (R30). -/
theorem regRead_offsets (s : State) :
    s.regRead offCMD = 0 ∧ s.regRead offSTATUS = s.status ∧ s.regRead offPREV = s.prev ∧
    s.regRead offRESULT = s.result ∧ s.regRead offADDR_LO = s.addrLo ∧ s.regRead offADDR_HI = s.addrHi ∧
    s.regRead offLEN_LO = s.lenLo ∧ s.regRead offLEN_HI = s.lenHi ∧ s.regRead offPFD_LO = s.pfdLo ∧
    s.regRead offPFD_HI = s.pfdHi ∧ s.regRead offCFG = s.cfg.word := by
  refine ⟨?_, ?_⟩ <;> (repeat' constructor)

/-- A write to a writable register is what that register reads; ADDR's bits from AW up stay 0 (R40 to R44). -/
theorem regRead_regWrite_self (s : State) (v : Word) :
    (s.regWrite offPREV v).regRead offPREV = v ∧
    (s.regWrite offADDR_LO v).regRead offADDR_LO = v &&& addrMaskLo s.cfg ∧
    (s.regWrite offADDR_HI v).regRead offADDR_HI = v &&& addrMaskHi s.cfg ∧
    (s.regWrite offLEN_LO v).regRead offLEN_LO = v ∧ (s.regWrite offLEN_HI v).regRead offLEN_HI = v ∧
    (s.regWrite offPFD_LO v).regRead offPFD_LO = v ∧ (s.regWrite offPFD_HI v).regRead offPFD_HI = v := by
  refine ⟨?_, ?_⟩ <;> (repeat' constructor)

/-- A write to one offset changes what no other offset reads. -/
theorem regRead_regWrite_of_ne (s : State) (v : Word) {off off' : Nat} (h : off' ≠ off) :
    (s.regWrite off v).regRead off' = s.regRead off' := by
  rcases regWrite_cases s off v with ⟨rfl, e⟩ | ⟨rfl, e⟩ | ⟨rfl, e⟩ | ⟨rfl, e⟩ | ⟨rfl, e⟩ | ⟨rfl, e⟩ | ⟨rfl, e⟩ | e <;>
  · simp [e, State.regRead, State.status, State.busy, h]

/-- Reserved offsets read 0 and ignore a write (R32). -/
theorem reserved_offset (s : State) (v : Word) {off : Nat} (h : 0x2C ≤ off) :
    s.regRead off = 0 ∧ s.regWrite off v = s := by
  constructor
  · have hne : ∀ r < 0x2C, off ≠ r := fun r hr => by omega
    simp [State.regRead, offSTATUS, offPREV, offRESULT, offADDR_LO, offADDR_HI, offLEN_LO, offLEN_HI, offPFD_LO,
      offPFD_HI, offCFG, hne]
  · rcases regWrite_cases s off v with ⟨e, _⟩ | ⟨e, _⟩ | ⟨e, _⟩ | ⟨e, _⟩ | ⟨e, _⟩ | ⟨e, _⟩ | ⟨e, _⟩ | e
    case inr.inr.inr.inr.inr.inr.inr => exact e
    all_goals
      rw [e] at h
      exact absurd h (by decide)

/-- The read-only registers ignore a write (R32). -/
theorem readOnly_offsets (s : State) (v : Word) :
    s.regWrite offSTATUS v = s ∧ s.regWrite offRESULT v = s ∧ s.regWrite offCFG v = s :=
  ⟨rfl, rfl, rfl⟩

/-- A pair is HI × 2^32 + LO (R33). -/
theorem toNat_pair (hi lo : Word) : (hi ++ lo : DWord).toNat = hi.toNat * 2 ^ 32 + lo.toNat := by
  rw [BitVec.toNat_append, ← Nat.shiftLeft_add_eq_or_of_lt lo.isLt, Nat.shiftLeft_eq]

theorem zero_pair : (0#32 ++ 0#32 : DWord) = 0 := by decide

/-- Settles O15: each half reads back by itself. -/
theorem lenAndPfdReadBack : Obligations.LenAndPfdReadBack := by
  intro s off v hoff
  obtain ⟨_, _, _, hLenLo, hLenHi, hPfdLo, hPfdHi⟩ := regRead_regWrite_self s v
  refine ⟨?_, fun off' hne => regRead_regWrite_of_ne s v hne, toNat_pair _ _, toNat_pair _ _⟩
  rcases hoff with rfl | rfl | rfl | rfl
  · exact hLenLo
  · exact hLenHi
  · exact hPfdLo
  · exact hPfdHi

/-- Settles O16. -/
theorem prevReadsBack : Obligations.PrevReadsBack := by
  intro s v
  exact ⟨(regRead_regWrite_self s v).1, fun off hne => regRead_regWrite_of_ne s v hne⟩

/-- Settles O17: the mask of each half has its bits below AW. -/
theorem addressBitsAboveAwAreHardwired : Obligations.AddressBitsAboveAwAreHardwired := by
  intro s v
  obtain ⟨_, hLo, hHi, _⟩ := regRead_regWrite_self s v
  refine ⟨fun i hi => ⟨?_, ?_⟩, fun off hne => regRead_regWrite_of_ne s v hne,
    fun off hne => regRead_regWrite_of_ne s v hne, toNat_pair _ _⟩
  · rw [hLo, BitVec.getLsbD_and, addrMaskLo_getLsbD, Bool.and_comm]
    simp [hi]
  · rw [hHi, BitVec.getLsbD_and, addrMaskHi_getLsbD, Bool.and_comm]
    simp [hi]

/-- Settles O14. -/
theorem reservedAndReadOnlyOffsets : Obligations.ReservedAndReadOnlyOffsets := by
  intro s v
  exact ⟨(regRead_offsets s).1, fun off h => reserved_offset s v h, readOnly_offsets s v⟩

/-! ## STATUS and CFG -/

theorem getLsbD_eq_iff (w : Word) (i : Nat) (b : Bool) : w.getLsbD i = b ↔ w.toNat / 2 ^ i % 2 = b.toNat := by
  rw [BitVec.getLsbD, Nat.testBit_eq_decide_div_mod_eq]
  cases b <;> simp

/-- The fields of STATUS (R35): its four bits, and a value below 16. -/
theorem status_getLsbD (s : State) (i : Nat) :
    s.status.getLsbD i =
      if i = 0 then s.busy else if i = 1 then s.tvalid else if i = 2 then s.ill else if i = 3 then s.berr
      else false := by
  have hbusy := s.busy.toNat_lt
  have htvalid := s.tvalid.toNat_lt
  have hill := s.ill.toNat_lt
  have hberr := s.berr.toNat_lt
  rw [State.status, getLsbD_eq_iff, BitVec.toNat_ofNat]
  split_ifs with h0 h1 h2 h3
  · subst h0; omega
  · subst h1; omega
  · subst h2; omega
  · subst h3; omega
  · have : 2 ^ 4 ≤ 2 ^ i := Nat.pow_le_pow_right (by decide) (by omega)
    rw [Nat.div_eq_of_lt (by omega)]
    rfl

/-- Settles O18. -/
theorem statusFields : Obligations.StatusFields := by
  intro s i v
  exact ⟨status_getLsbD s i, (readOnly_offsets s v).1⟩

/-- The parameters fit the fields of CFG (R11, R14, R17, R45). -/
theorem config_codes_lt {cfg : Config} (h : cfg.wf = true) :
    cfg.strategy.code < 2 ^ 3 ∧ cfg.tableInit.code < 2 ^ 2 ∧ cfg.pfImpl.toNat < 2 ∧ cfg.strategy.nslices < 2 ^ 5 ∧
    cfg.strategy.hasHalf.toNat < 2 ∧ cfg.aw < 2 ^ 7 := by
  refine ⟨?_, ?_, Bool.toNat_lt _, ?_, Bool.toNat_lt _, ?_⟩
  · cases cfg.strategy <;> decide
  · cases cfg.tableInit <;> decide
  · cases cfg.strategy <;> decide
  · simp [Config.wf] at h
    omega

/-- CFG as a number: its fields do not overlap, so none overflows (R45). -/
theorem config_word_toNat {cfg : Config} (h : cfg.wf = true) :
    cfg.word.toNat = cfg.strategy.code + cfg.tableInit.code * 2 ^ 4 + cfg.pfImpl.toNat * 2 ^ 8
      + cfg.strategy.nslices * 2 ^ 16 + cfg.strategy.hasHalf.toNat * 2 ^ 21 + cfg.aw * 2 ^ 24 := by
  obtain ⟨_, _, _, _, _, _⟩ := config_codes_lt h
  rw [Config.word, BitVec.toNat_ofNat]
  omega

theorem extract_toNat (w : Word) (start len : Nat) :
    (w.extractLsb' start len).toNat = w.toNat / 2 ^ start % 2 ^ len := by
  rw [BitVec.extractLsb'_toNat, Nat.shiftRight_eq_div_pow]

theorem extract_eq_zero_iff (w : Word) (start len : Nat) :
    w.extractLsb' start len = 0 ↔ w.toNat / 2 ^ start % 2 ^ len = 0 := by
  rw [← extract_toNat, ← BitVec.toNat_inj]
  simp

/-- Each field of CFG is a quotient and remainder of that number (R45). -/
theorem config_word_fields {cfg : Config} (h : cfg.wf = true) :
    (cfg.word.extractLsb' 0 3).toNat = cfg.strategy.code ∧ cfg.word.getLsbD 3 = false ∧
    (cfg.word.extractLsb' 4 2).toNat = cfg.tableInit.code ∧ cfg.word.extractLsb' 6 2 = 0 ∧
    cfg.word.getLsbD 8 = cfg.pfImpl ∧ cfg.word.extractLsb' 9 7 = 0 ∧
    (cfg.word.extractLsb' 16 5).toNat = cfg.strategy.nslices ∧ cfg.word.getLsbD 21 = cfg.strategy.hasHalf ∧
    cfg.word.extractLsb' 22 2 = 0 ∧ (cfg.word.extractLsb' 24 7).toNat = cfg.aw ∧ cfg.word.getLsbD 31 = false := by
  obtain ⟨_, _, _, _, _, _⟩ := config_codes_lt h
  simp only [getLsbD_eq_iff, extract_eq_zero_iff, extract_toNat, config_word_toNat h, Bool.toNat_false]
  refine ⟨?_, ?_, ?_, ?_, ?_, ?_, ?_, ?_, ?_, ?_, ?_⟩ <;> omega

/-- Settles O19. -/
theorem cfgFields : Obligations.CfgFields := by
  refine ⟨fun s t v => ⟨rfl, fun h => congrArg Config.word h⟩, fun s hw => ?_, by decide⟩
  exact config_word_fields hw

/-! ## Host accesses -/

theorem admitted_iff (off width : Nat) : admitted off width = true ↔ width = 4 ∧ off % 4 = 0 ∧ off < 256 := by
  simp [admitted, and_assoc]

/-- The host's 32-bit write to a register, by offset or by system address, is a write by its offset (R15, R30). -/
theorem perform_of_isRegWrite {e : Event} {s : State} {off : Nat} {v : Word} (ho : off < 256)
    (he : e.IsRegWrite s.cfg off v) : perform e s = hostWrite off 4 v s := by
  rcases he with rfl | rfl
  · rfl
  · simp [perform, windowOffset_regBase_add s.cfg ho]

/-- So it is a CMD write, or is performed at once (R46, R48). -/
theorem step_of_isRegWrite {s : State} {e : Event} {rest : List Event} {off : Nat} {v : Word} (hw : s.waiting = none)
    (hq : s.queue = e :: rest) (ha : off % 4 = 0) (ho : off < 256) (he : e.IsRegWrite s.cfg off v) :
    step s = if off = offCMD then issue v { s with queue := rest }
      else .next (State.regWrite { s with queue := rest } off v) := by
  rw [step_of_queue_cons (.inl hw) hq]
  exact (perform_of_isRegWrite (s := { s with queue := rest }) ho he).trans
    (if_pos ((admitted_iff _ _).2 ⟨rfl, ha, ho⟩))

/-- Every command has an acceptance step (R102). -/
theorem exec_next (i : Instr) (s : State) : ∃ t, exec i s = .next t := by
  rcases exec_cases i s with
    ⟨_, e⟩ | ⟨_, _, e⟩ | ⟨_, _, e⟩ | ⟨_, e⟩ | ⟨_, e⟩ | ⟨_, _, e⟩ | ⟨_, e⟩ <;> exact ⟨_, e⟩

/-- And so has every word (R48, R110). -/
theorem accept_next (w : Word) (s : State) : ∃ t, accept w s = .next t := by
  rcases accept_cases w s with ⟨i, _, e⟩ | ⟨_, _, e⟩ <;> rw [e]
  · exact exec_next i s
  · exact ⟨_, rfl⟩

theorem issue_next (w : Word) (s : State) : ∃ t, issue w s = .next t := by
  unfold issue
  split
  · exact ⟨_, rfl⟩
  · exact accept_next w s

/-- A read or a write is refused by its offset and width alone (R31). -/
theorem hostRead_refused_or_next (off width : Nat) (s : State) :
    (¬ (width = 4 ∧ off % 4 = 0 ∧ off < 256) → hostRead off width s = .refused (.accessNotAdmitted off width)) ∧
    ((width = 4 ∧ off % 4 = 0 ∧ off < 256) → ∃ t, hostRead off width s = .next t) := by
  rw [← admitted_iff, hostRead]
  constructor <;> intro h
  · rw [if_neg h]
  · exact ⟨_, if_pos h⟩

theorem hostWrite_refused_or_next (off width : Nat) (v : Word) (s : State) :
    (¬ (width = 4 ∧ off % 4 = 0 ∧ off < 256) → hostWrite off width v s = .refused (.accessNotAdmitted off width)) ∧
    ((width = 4 ∧ off % 4 = 0 ∧ off < 256) → ∃ t, hostWrite off width v s = .next t) := by
  rw [← admitted_iff, hostWrite]
  constructor <;> intro h
  · rw [if_neg h]
  · rw [if_pos h]
    split
    · exact issue_next v s
    · exact ⟨_, rfl⟩

/-- Settles O11. -/
theorem unadmittedAccessesAreRefused : Obligations.UnadmittedAccessesAreRefused := by
  constructor
  · intro s off width v rest hw hq
    rcases hq with hq | hq <;> rw [step_of_queue_cons (.inl hw) hq]
    · exact hostRead_refused_or_next off width _
    · exact hostWrite_refused_or_next off width v _
  · intro s addr width v rest hw hq
    by_cases hwin : s.cfg.regBase ≤ addr ∧ addr < s.cfg.regBase + 256
    · have ho : s.cfg.windowOffset addr = some (addr - s.cfg.regBase) := if_pos hwin
      have hlt : addr - s.cfg.regBase < 256 := by omega
      rcases hq with hq | hq <;> rw [step_of_queue_cons (.inl hw) hq] <;> simp only [perform, ho]
      · have := hostRead_refused_or_next (addr - s.cfg.regBase) width { s with queue := rest }
        simpa [hwin, hlt] using this
      · have := hostWrite_refused_or_next (addr - s.cfg.regBase) width v { s with queue := rest }
        simpa [hwin, hlt] using this
    · have ho : s.cfg.windowOffset addr = none := if_neg hwin
      refine ⟨fun _ => ?_, fun h => absurd h hwin, fun h => absurd h hwin⟩
      rcases hq with hq | hq <;> rw [step_of_queue_cons (.inl hw) hq] <;> simp only [perform, ho]

/-- Settles O12. -/
theorem hostReadReturnsRegister : Obligations.HostReadReturnsRegister := by
  refine ⟨regRead_offsets, fun s off rest hw ha ho hq => ?_⟩
  have hread : ∀ u : State, hostRead off 4 u = .next (u.logRead (u.regRead off)) := fun u =>
    if_pos ((admitted_iff _ _).2 ⟨rfl, ha, ho⟩)
  rcases hq with hq | hq <;> rw [step_of_queue_cons (.inl hw) hq]
  · exact hread _
  · simp only [perform, windowOffset_regBase_add s.cfg ho]
    exact hread _

/-- A register write changes operand registers only (R46). -/
theorem regWrite_withoutOperands (s : State) (off : Nat) (v : Word) :
    (s.regWrite off v).withoutOperands = s.withoutOperands := by
  rcases regWrite_cases s off v with ⟨_, e⟩ | ⟨_, e⟩ | ⟨_, e⟩ | ⟨_, e⟩ | ⟨_, e⟩ | ⟨_, e⟩ | ⟨_, e⟩ | e <;> rw [e] <;> rfl

/-- Settles O13. -/
theorem operandWriteIsPerformedAtOnce : Obligations.OperandWriteIsPerformedAtOnce := by
  intro s off v rest hw ha ho hne hq
  have hstep : step s = .next (State.regWrite { s with queue := rest } off v) := by
    rcases hq with hq | hq
    · rw [step_of_isRegWrite hw hq ha ho (.inl rfl), if_neg hne]
    · rw [step_of_isRegWrite hw hq ha ho (.inr rfl), if_neg hne]
  exact ⟨_, hstep, rfl, regWrite_withoutOperands _ off v⟩

/-! ## Reset -/

theorem launch_phase (cfg : Config) (mem : Memory) :
    (State.launch cfg mem).phase = if (State.launch cfg mem).busy then .building else .idle := by
  cases h : cfg.resetBuilds <;> simp [State.launch, State.busy, h]

/-- BUSY = 1 after reset exactly when the AUTO build starts (R55). -/
theorem launch_busy (cfg : Config) (mem : Memory) : (State.launch cfg mem).busy = cfg.resetBuilds := by
  cases h : cfg.resetBuilds <;> simp [State.launch, State.busy, h]

/-- Settles O47. -/
theorem resetValues : Obligations.ResetValues := by
  intro cfg mem s
  have hbusy : s.busy = true ↔ (cfg.strategy.needsTables = true ∧ cfg.tableInit = .auto) := by
    rw [launch_busy]
    simp [Config.resetBuilds]
  have htvalid : s.tvalid = true ↔ (cfg.strategy.needsTables = false ∨ cfg.tableInit = .rom) := by
    simp [s, State.launch, Config.resetTvalid]
  have htables : cfg.tableInit = .rom → s.tables = builtTables cfg ∧ s.half = builtHalf cfg := fun hrom =>
    ⟨if_pos hrom, if_pos hrom⟩
  exact ⟨hbusy, htvalid, rfl, rfl, rfl, rfl, zero_pair, zero_pair, zero_pair, rfl, htables,
    launch_phase cfg mem, fun _ => ⟨rfl, rfl⟩⟩

end Sys2Proof.Machine

/-! The acceptance of a command word (10_state.md R38 to R50, 30_encoding.md R109, R110): what `decode` and `decodeWord`
say of the same word, and which registers an acceptance and a step may change. -/

namespace Sys2Proof.Machine

/-! ## Decoding with and without the configuration -/

theorem halfReadable_iff (cfg : Config) (tvalid : Bool) :
    cfg.halfReadable tvalid = true ↔ cfg.strategy = .halfbyte ∧ tvalid = true := by
  simp [Config.halfReadable, Strategy.hasHalf]

theorem sliceReadable_iff (cfg : Config) (tvalid : Bool) (k : Nibble) :
    cfg.sliceReadable tvalid k = true ↔ k.toNat < cfg.strategy.nslices ∧ tvalid = true := by
  simp [Config.sliceReadable]

/-- R109 is `decodeWord` and then the check of the configuration and TVALID (R110). -/
theorem decode_eq (cfg : Config) (tvalid : Bool) (w : Word) :
    decode cfg tvalid w = (decodeWord w).toOption.filter (Instr.wellFormed cfg tvalid) := by
  by_cases hw : w = 0x00000000#32 ∨ w = 0x00000001#32 ∨ w = 0x00000002#32 ∨ w = 0x00000003#32
  · rcases hw with rfl | rfl | rfl | rfl <;> rfl
  obtain ⟨h0, h1, h2, h3⟩ : w ≠ 0x00000000#32 ∧ w ≠ 0x00000001#32 ∧ w ≠ 0x00000002#32 ∧ w ≠ 0x00000003#32 := by
    simpa using hw
  by_cases hop : opField w = 0x4#4
  · by_cases hr : rsv0Field w = 0#4 ∧ rsv1Field w = 0#11
    · cases hs : hselField w with
      | false =>
        simp [decode, decodeWord, hop, hr, hs, Except.toOption, Option.filter, Instr.wellFormed, sliceReadable_iff]
      | true =>
        by_cases ht : tselField w = 0#4
        · by_cases hx : tidxHighField w = 0#4
          · simp [decode, decodeWord, hop, hr, hs, ht, hx, Except.toOption, Option.filter, Instr.wellFormed,
              halfReadable_iff]
          · simp [decode, decodeWord, hop, hr, hs, ht, hx, Except.toOption]
        · simp [decode, decodeWord, hop, hr, hs, ht, Except.toOption]
    · have hr' : rsv0Field w ≠ 0#4 ∨ rsv1Field w ≠ 0#11 := by rwa [← not_and_or]
      simp only [decode, decodeWord, hop, hr, hr']
      simp [Except.toOption]
  · simp only [decode, decodeWord, hop, h0, h1, h2, h3, and_false, false_and, if_false]
    split_ifs <;> rfl

theorem decode_of_ok {w : Word} {i : Instr} (h : decodeWord w = .ok i) (cfg : Config) (tvalid : Bool) :
    decode cfg tvalid w = if i.wellFormed cfg tvalid then some i else none := by
  rw [decode_eq, h]
  rfl

theorem decode_of_error {w : Word} {e : Illegal} (h : decodeWord w = .error e) (cfg : Config) (tvalid : Bool) :
    decode cfg tvalid w = none := by
  rw [decode_eq, h]
  rfl

/-- The two checksum commands have one word each (R106, R107). -/
theorem decodeWord_checksum_iff (w : Word) :
    decodeWord w = .ok .crc ∨ decodeWord w = .ok .crcpf ↔ w = 0x00000002#32 ∨ w = 0x00000003#32 := by
  constructor
  · unfold decodeWord
    split_ifs <;> simp_all
  · rintro (rfl | rfl)
    · exact .inl rfl
    · exact .inr rfl

/-! ## Acceptance -/

/-- A table read that the configuration or TVALID rules out has the ILLEGAL word's effect (R110). -/
theorem exec_of_not_wellFormed {i : Instr} {s : State} (h : i.wellFormed s.cfg s.tvalid = false) :
    exec i s = .next s.illegalWord := by
  cases i with
  | nop | build | crc | crcpf => cases h
  | rdtbl k b => exact if_neg (by simpa [Instr.wellFormed] using h)
  | rdhtbl q => exact if_neg (by simpa [Instr.wellFormed] using h)

theorem accept_of_ok {w : Word} {i : Instr} (h : decodeWord w = .ok i) (s : State) : accept w s = exec i s := by
  rw [accept, h]

/-- Accepting an ILLEGAL word sets ILL, clears BERR and changes nothing else (R110). -/
theorem accept_of_decode_none {w : Word} {s : State} (h : decode s.cfg s.tvalid w = none) :
    accept w s = .next s.illegalWord := by
  rcases accept_cases w s with ⟨i, hi, e⟩ | ⟨_, _, e⟩
  · rw [e]
    exact exec_of_not_wellFormed (by simpa [decode_of_ok hi] using h)
  · exact e

/-- What the range check and the start of the fold leave unchanged (R46, R160). -/
theorem startFold_frame (s : State) :
    s.startFold.ill = s.ill ∧ s.startFold.result = s.result ∧ s.startFold.prev = s.prev ∧
    s.startFold.addr = s.addr ∧ s.startFold.len = s.len ∧ s.startFold.pfd = s.pfd := by
  rcases startFold_cases s with ⟨_, e⟩ | ⟨_, e⟩ <;> rw [e] <;> exact ⟨rfl, rfl, rfl, rfl, rfl, rfl⟩

theorem startFold_berr (s : State) : s.startFold.berr = true ↔ s.berr = true ∨ s.cfg.space < s.a.toNat + s.n.toNat := by
  rcases startFold_cases s with ⟨h, e⟩ | ⟨h, e⟩ <;> rw [e]
  · simp [Nat.not_lt.2 h]
  · simp [h]

/-- ILL after a command's acceptance says whether it was illegal (R38). -/
theorem exec_next_ill {i : Instr} {s t : State} (h : exec i s = .next t) : t.ill = !i.wellFormed s.cfg s.tvalid := by
  rcases exec_cases i s with
    ⟨rfl, e⟩ | ⟨rfl, _, e⟩ | ⟨rfl, _, e⟩ | ⟨rfl, e⟩ | ⟨rfl, e⟩ | ⟨_, hw, e⟩ | ⟨hw, e⟩ <;> cases e.symm.trans h
  · rfl
  · rfl
  · rfl
  · exact (startFold_frame _).1
  · exact (startFold_frame _).1
  · rw [hw]
    rfl
  · rw [hw]
    rfl

/-- BERR after a command's acceptance is a failed range check (R39, R222). -/
theorem exec_next_berr {i : Instr} {s t : State} (h : exec i s = .next t) :
    t.berr = true ↔ (i = .crc ∨ i = .crcpf) ∧ s.cfg.space < s.addr.toNat + s.len.toNat := by
  have hother : i ≠ .crc → i ≠ .crcpf → t.berr = false := by
    intro hcrc hcrcpf
    rcases exec_cases i s with
      ⟨_, e⟩ | ⟨_, _, e⟩ | ⟨_, _, e⟩ | ⟨hi, _⟩ | ⟨hi, _⟩ | ⟨_, _, e⟩ | ⟨_, e⟩
    case inr.inr.inr.inl => exact absurd hi hcrc
    case inr.inr.inr.inr.inl => exact absurd hi hcrcpf
    all_goals
      cases e.symm.trans h
      rfl
  cases i with
  | crc | crcpf =>
    cases h
    rw [startFold_berr]
    simp
  | nop | build | rdtbl | rdhtbl =>
    rw [hother (by simp) (by simp)]
    simp

/-- Only a legal table read writes RESULT in its acceptance step (R140, R141). -/
theorem exec_next_result {i : Instr} {s t : State} (h : exec i s = .next t) (hr : t.result ≠ s.result) :
    i.wellFormed s.cfg s.tvalid = true ∧
    ((∃ k b, i = .rdtbl k b ∧ t.result = s.tableEntry k.toNat b) ∨
     (∃ q, i = .rdhtbl q ∧ t.result = s.halfTableEntry q)) := by
  cases i with
  | nop =>
    cases h
    exact absurd rfl hr
  | build =>
    simp only [exec, execBuild] at h
    split at h <;> cases h <;> exact absurd rfl hr
  | crc =>
    cases h
    exact absurd (startFold_frame _).2.1 hr
  | crcpf =>
    cases h
    exact absurd (startFold_frame _).2.1 hr
  | rdtbl k b =>
    simp only [exec, execRdtbl] at h
    split at h <;> cases h
    · exact ⟨‹_›, .inl ⟨k, b, rfl, rfl⟩⟩
    · exact absurd rfl hr
  | rdhtbl q =>
    simp only [exec, execRdhtbl] at h
    split at h <;> cases h
    · exact ⟨‹_›, .inr ⟨q, rfl, rfl⟩⟩
    · exact absurd rfl hr

/-- No acceptance writes an operand register (R46). -/
theorem exec_next_operands {i : Instr} {s t : State} (h : exec i s = .next t) :
    t.prev = s.prev ∧ t.addr = s.addr ∧ t.len = s.len ∧ t.pfd = s.pfd := by
  rcases exec_cases i s with
    ⟨_, e⟩ | ⟨_, _, e⟩ | ⟨_, _, e⟩ | ⟨_, e⟩ | ⟨_, e⟩ | ⟨_, _, e⟩ | ⟨_, e⟩ <;> cases e.symm.trans h
  case inr.inr.inr.inl | inr.inr.inr.inr.inl => exact (startFold_frame _).2.2
  all_goals exact ⟨rfl, rfl, rfl, rfl⟩

theorem accept_next_operands {w : Word} {s t : State} (h : accept w s = .next t) :
    t.prev = s.prev ∧ t.addr = s.addr ∧ t.len = s.len ∧ t.pfd = s.pfd := by
  rcases accept_cases w s with ⟨i, _, e⟩ | ⟨_, _, e⟩
  · exact exec_next_operands (e.symm.trans h)
  · cases e.symm.trans h
    exact ⟨rfl, rfl, rfl, rfl⟩

/-- Settles O25: the range check of the latched buffer passes. -/
theorem crcStartsTheRun : Obligations.CrcStartsTheRun := by
  intro s hfit
  rcases startFold_cases s.clearErrors.latch with ⟨_, e⟩ | ⟨hover, _⟩
  · exact congrArg Host.Outcome.next e
  · exact absurd hfit (Nat.not_le.2 hover)

/-! ## What a step changes -/

/-- A register write leaves ILL and RESULT (R38, R41). -/
theorem regWrite_frame (s : State) (off : Nat) (v : Word) :
    (s.regWrite off v).ill = s.ill ∧ (s.regWrite off v).result = s.result := by
  rcases regWrite_cases s off v with ⟨_, e⟩ | ⟨_, e⟩ | ⟨_, e⟩ | ⟨_, e⟩ | ⟨_, e⟩ | ⟨_, e⟩ | ⟨_, e⟩ | e <;> rw [e] <;>
    exact ⟨rfl, rfl⟩

/-- At the offset of no operand register it leaves everything (R32). -/
theorem regWrite_eq_self_or_operand (s : State) (off : Nat) (v : Word) :
    s.regWrite off v = s ∨ off = offPREV ∨ off = offADDR_LO ∨ off = offADDR_HI ∨ off = offLEN_LO ∨ off = offLEN_HI ∨
      off = offPFD_LO ∨ off = offPFD_HI := by
  rcases regWrite_cases s off v with ⟨h, _⟩ | ⟨h, _⟩ | ⟨h, _⟩ | ⟨h, _⟩ | ⟨h, _⟩ | ⟨h, _⟩ | ⟨h, _⟩ | h <;> simp [h]

/-- A store leaves ILL, RESULT and the operand registers. -/
theorem storeByte_frame (s : State) (addr : Nat) (b : Byte) :
    (s.storeByte addr b).ill = s.ill ∧ (s.storeByte addr b).result = s.result ∧
    (s.storeByte addr b).prev = s.prev ∧ (s.storeByte addr b).addr = s.addr ∧ (s.storeByte addr b).len = s.len ∧
    (s.storeByte addr b).pfd = s.pfd := by
  rcases storeByte_cases s addr b with ⟨_, e⟩ | ⟨_, e⟩ <;> rw [e] <;> exact ⟨rfl, rfl, rfl, rfl, rfl, rfl⟩

/-- An engine step leaves the operand registers (R46). -/
theorem engineStep_operands (s : State) :
    s.engineStep.prev = s.prev ∧ s.engineStep.addr = s.addr ∧ s.engineStep.len = s.len ∧ s.engineStep.pfd = s.pfd := by
  simp [State.addr, State.len, State.pfd, engineStep_frame s]

/-- It writes RESULT only as the completion of a command with no byte left (R160, R176). -/
theorem engineStep_result_ne {s : State} (h : s.engineStep.result ≠ s.result) :
    s.phase = .running ∧ s.rem = 0 ∧ s.engineStep = s.complete := by
  rcases engineStep_cases s with ⟨_, e⟩ | ⟨_, e⟩ | ⟨hp, hr, e⟩ | ⟨_, _, _, e⟩ | ⟨_, _, _, _, e⟩
  case inr.inr.inl => exact ⟨hp, hr, e⟩
  all_goals
    rw [e] at h
    exact absurd (by simp [buildStep_frame s]) h

/-- Settles O28: only an acceptance and a reset write ILL. -/
theorem illDescribesTheLastWord : Obligations.IllDescribesTheLastWord := by
  constructor
  · intro s w
    obtain ⟨t, ht⟩ := accept_next w s
    refine ⟨t, ht, ?_⟩
    rcases accept_cases w s with ⟨i, hi, e⟩ | ⟨_, he, e⟩
    · rw [exec_next_ill (e.symm.trans ht), decode_of_ok hi]
      cases i.wellFormed s.cfg s.tvalid <;> rfl
    · cases e.symm.trans ht
      rw [decode_of_error he]
      rfl
  · intro s t h hnone hill
    rcases step_effects h with
      ⟨_, _, hw, _⟩ | ⟨_, rfl⟩ | ⟨_, _, _, rfl⟩ | ⟨_, _, off, v, _, _, _, rfl⟩ | ⟨_, addr, b, _, rfl⟩ | ⟨rest, hq, _⟩
    · cases hnone.symm.trans hw
    · exact absurd (engineStep_frame _).2.1 hill
    · exact absurd rfl hill
    · exact absurd (regWrite_frame _ off v).1 hill
    · exact absurd (storeByte_frame _ addr b).1 hill
    · exact ⟨rest, hq⟩

/-- Settles O29. -/
theorem berrAtAcceptanceIsTheRangeError : Obligations.BerrAtAcceptanceIsTheRangeError := by
  intro s w
  obtain ⟨t, ht⟩ := accept_next w s
  refine ⟨t, ht, ?_⟩
  rw [← decodeWord_checksum_iff]
  rcases accept_cases w s with ⟨i, hi, e⟩ | ⟨_, he, e⟩
  · rw [exec_next_berr (e.symm.trans ht), hi]
    simp [Config.space]
  · cases e.symm.trans ht
    simp [he]

/-- Settles O49: of an engine's steps only a completion writes RESULT, of acceptances only a legal table read. -/
theorem resultIsWrittenOnlyThen : Obligations.ResultIsWrittenOnlyThen := by
  intro s t h hr
  rcases step_effects h with
    ⟨w, q, hw, ha⟩ | ⟨q, rfl⟩ | ⟨_, _, _, rfl⟩ | ⟨_, _, off, v, _, _, _, rfl⟩ | ⟨_, addr, b, _, rfl⟩ | ⟨rest, hq, rfl⟩
  · rcases accept_cases w { s with queue := q, waiting := none } with ⟨i, hi, e⟩ | ⟨_, _, e⟩
    · obtain ⟨hwf, hread⟩ := exec_next_result (e.symm.trans ha) hr
      have hdec : decode s.cfg s.tvalid w = some i := (decode_of_ok hi _ _).trans (if_pos hwf)
      rcases hread with ⟨k, b, rfl, hv⟩ | ⟨q, rfl, hv⟩
      · exact .inr (.inl ⟨w, k, b, hw, hdec, hv⟩)
      · exact .inr (.inr (.inl ⟨w, q, hw, hdec, hv⟩))
    · cases e.symm.trans ha
      exact absurd rfl hr
  · refine .inl ?_
    obtain ⟨hp, hrem, e⟩ := engineStep_result_ne hr
    rw [e]
    exact ⟨hp, hrem, rfl, rfl⟩
  · exact absurd rfl hr
  · exact absurd (regWrite_frame _ off v).2 hr
  · exact absurd (storeByte_frame _ addr b).2.1 hr
  · exact .inr (.inr (.inr ⟨rest, hq, rfl⟩))

/-- Settles O50: a register write at an offset of no operand register changes nothing. -/
theorem operandsAreWrittenByTheHostOnly : Obligations.OperandsAreWrittenByTheHostOnly := by
  intro s t h hne
  rcases step_effects h with
    ⟨w, q, hw, ha⟩ | ⟨q, rfl⟩ | ⟨_, _, _, rfl⟩ | ⟨_, rest, off, v, hw, hq, he, rfl⟩ | ⟨_, addr, b, _, rfl⟩ |
    ⟨rest, hq, rfl⟩
  · exact absurd (accept_next_operands ha) hne
  · exact absurd (engineStep_operands _) hne
  · exact absurd ⟨rfl, rfl, rfl, rfl⟩ hne
  · rcases regWrite_eq_self_or_operand { s with queue := rest } off v with e | hoff
    · rw [e] at hne
      exact absurd ⟨rfl, rfl, rfl, rfl⟩ hne
    · refine ⟨rest, .inl ⟨hw, off, v, hoff, ?_, rfl⟩⟩
      rcases he with rfl | rfl
      · exact .inl hq
      · exact .inr hq
  · exact absurd (storeByte_frame _ addr b).2.2 hne
  · exact ⟨rest, .inr ⟨hq, rfl, zero_pair, zero_pair, zero_pair⟩⟩

/-! ## The acceptance step and the waiting write -/

/-- A waiting CMD write is accepted before the next event (R48). -/
theorem step_of_waiting {s : State} {w : Word} (hb : s.busy = false) (hw : s.waiting = some w) :
    step s = accept w { s with waiting := none } := by
  simp [step, advance, hw, hb]

/-- The CMD write at the head of the schedule is accepted while BUSY = 0, and waits otherwise (R48). -/
theorem step_of_cmdWrite {s : State} {e : Event} {rest : List Event} {w : Word} (hw : s.waiting = none)
    (hq : s.queue = e :: rest) (he : e.IsRegWrite s.cfg offCMD w) : step s = issue w { s with queue := rest } := by
  rw [step_of_isRegWrite hw hq (by decide) (by decide) he, if_pos rfl]

theorem issue_of_idle {s : State} (hb : s.busy = false) (w : Word) : issue w s = accept w s :=
  if_neg (by simp [hb])

/-- What a host access finds while a CMD write waits: the engine steps, and the access stays on the schedule (R48,
R256). -/
theorem step_of_blocked {s : State} {w : Word} {e : Event} {rest : List Event} (hb : s.busy = true)
    (hw : s.waiting = some w) (hq : s.queue = e :: rest) (he : e.isHostAccess = true) :
    step s = .next s.engineStep := by
  simp [step, advance, advanceBlocked, hw, hb, hq, he]

/-- Settles O41. -/
theorem stepRunsTheDecodedCommand : Obligations.StepRunsTheDecodedCommand := by
  intro s w rest hb
  refine ⟨fun hw hq => ?_, fun hw => ?_⟩
  · have hstep : step s = accept w { s with queue := rest } := by
      refine Eq.trans ?_ (issue_of_idle (s := { s with queue := rest }) hb w)
      rcases hq with hq | hq
      · exact step_of_cmdWrite hw hq (.inl rfl)
      · exact step_of_cmdWrite hw hq (.inr rfl)
    rw [hstep]
    exact ⟨rfl, fun i hi => accept_of_ok hi _, fun hn => accept_of_decode_none (s := { s with queue := rest }) hn⟩
  · rw [step_of_waiting hb hw]
    exact ⟨rfl, fun i hi => accept_of_ok hi _, fun hn => accept_of_decode_none (s := { s with waiting := none }) hn⟩

theorem decodeWord_of_decodeTableWord {nbits w : Nat} {i : Instr} (h : decodeTableWord nbits w = some i) :
    decodeWord (BitVec.ofNat 32 (w % 2 ^ nbits)) = .ok i := by
  unfold decodeTableWord at h
  split at h
  · cases hd : decodeWord (BitVec.ofNat 32 (w % 2 ^ nbits)) <;> simp_all [Except.toOption]
  · cases h

/-- Settles O42: the engine's work ended and the write at the head of the schedule, the word is accepted. -/
theorem placedWordRunsNext : Obligations.PlacedWordRunsNext := by
  intro s w i h
  have hidle : s.settle.busy = false := (busy_eq_false_iff _).2 (settle_idle s)
  refine ⟨?_, hidle⟩
  calc step (s.withFetchWord 32 w)
      = issue (BitVec.ofNat 32 (w % 2 ^ 32)) { s.settle with waiting := none } :=
        step_of_cmdWrite (s := s.withFetchWord 32 w) rfl rfl (.inl rfl)
    _ = accept (BitVec.ofNat 32 (w % 2 ^ 32)) { s.settle with waiting := none } :=
        issue_of_idle (s := { s.settle with waiting := none }) hidle _
    _ = exec i { s.settle with waiting := none } := accept_of_ok (decodeWord_of_decodeTableWord h) _

/-- Settles O43. -/
theorem cmdWriteWaitsWhileBusy : Obligations.CmdWriteWaitsWhileBusy := by
  intro s w rest hb
  refine ⟨fun hw hq => ?_, fun hw => ?_⟩
  · have hissue : issue w { s with queue := rest } = .next { s with queue := rest, waiting := some w } := if_pos hb
    rcases hq with hq | hq
    · exact (step_of_cmdWrite hw hq (.inl rfl)).trans hissue
    · exact (step_of_cmdWrite hw hq (.inr rfl)).trans hissue
  · refine ⟨fun x hq => ?_, fun addr width hq => ?_, fun addr width v hq => ?_, fun hq => ?_, fun hq => ?_,
      fun addr b hq => ?_, fun hq => step_of_queue_nil (.inr hb) hq⟩ <;> exact step_of_blocked hb hw hq rfl

end Sys2Proof.Machine

/-! The buffer memory (20_memory.md R72): the engine reads it and never writes it; a store is what changes it. -/

namespace Sys2Proof.Machine

/-! ## What an engine step changes -/

/-- Outside a build the tables, TVALID and the builder's indices stay (R137). -/
theorem engineStep_tables_frame {s : State} (hp : s.phase ≠ .building) :
    s.engineStep.tables = s.tables ∧ s.engineStep.half = s.half ∧ s.engineStep.tvalid = s.tvalid ∧
    s.engineStep.bk = s.bk ∧ s.engineStep.bi = s.bi := by
  rcases engineStep_cases s with ⟨_, e⟩ | ⟨hb, _⟩ | ⟨_, _, e⟩ | ⟨_, _, _, e⟩ | ⟨_, _, _, _, e⟩
  case inr.inl => exact absurd hb hp
  all_goals
    rw [e]
    simp

/-- With no command running RESULT, BERR, the working values of a command and its port stay (R168). -/
theorem engineStep_run_frame {s : State} (hp : s.phase ≠ .running) :
    s.engineStep.result = s.result ∧ s.engineStep.berr = s.berr ∧ s.engineStep.c = s.c ∧
    s.engineStep.cur = s.cur ∧ s.engineStep.rem = s.rem ∧ s.engineStep.reads = s.reads ∧
    s.engineStep.hints = s.hints ∧ s.engineStep.free = s.free := by
  rcases engineStep_cases s with ⟨_, e⟩ | ⟨_, e⟩ | ⟨hr, _⟩ | ⟨hr, _⟩ | ⟨_, hr, _⟩
  case inr.inr.inl | inr.inr.inr.inl | inr.inr.inr.inr => exact absurd hr hp
  · rw [e]
    simp
  · rw [e]
    simp [buildStep_frame s]

/-- Settles O31: the frames of an engine step, by phase; only a completion, with no byte left, writes RESULT. -/
theorem engineStepFrame : Obligations.EngineStepFrame := by
  intro s
  have hresult : s.rem ≠ 0 → s.engineStep.result = s.result := fun hrem =>
    by_contra fun hne => hrem (engineStep_result_ne hne).2.1
  simpa [engineStep_frame s] using ⟨engineStep_tables_frame, engineStep_run_frame, hresult⟩

/-! ## What changes the memory -/

@[simp] theorem engineStep_mem (s : State) : s.engineStep.mem = s.mem := by
  simp [engineStep_frame s]

@[simp] theorem hardReset_mem (s : State) : s.hardReset.mem = s.mem := rfl

@[simp] theorem regWrite_mem (s : State) (off : Nat) (v : Word) : (s.regWrite off v).mem = s.mem := by
  rcases regWrite_cases s off v with ⟨_, e⟩ | ⟨_, e⟩ | ⟨_, e⟩ | ⟨_, e⟩ | ⟨_, e⟩ | ⟨_, e⟩ | ⟨_, e⟩ | e <;> rw [e]

@[simp] theorem storeByte_mem (s : State) (addr : Nat) (b : Byte) : (s.storeByte addr b).mem = s.mem.write addr b := by
  rcases storeByte_cases s addr b with ⟨_, e⟩ | ⟨_, e⟩ <;> rw [e]

@[simp] theorem startFold_mem (s : State) : s.startFold.mem = s.mem := by
  rcases startFold_cases s with ⟨_, e⟩ | ⟨_, e⟩ <;> simp [e]

/-- No command's acceptance writes the memory (R72, R102). -/
theorem exec_next_mem {i : Instr} {s t : State} (h : exec i s = .next t) : t.mem = s.mem := by
  rcases exec_cases i s with
    ⟨_, e⟩ | ⟨_, _, e⟩ | ⟨_, _, e⟩ | ⟨_, e⟩ | ⟨_, e⟩ | ⟨_, _, e⟩ | ⟨_, e⟩ <;>
  · cases e.symm.trans h
    simp

/-- Nor does the acceptance of an ILLEGAL word (R110). -/
theorem accept_next_mem {w : Word} {s t : State} (h : accept w s = .next t) : t.mem = s.mem := by
  rcases accept_cases w s with ⟨i, _, e⟩ | ⟨_, _, e⟩
  · exact exec_next_mem (e.symm.trans h)
  · cases e.symm.trans h
    simp

/-- Of the events only a store writes the memory, and it writes its byte. -/
theorem perform_next_mem {e : Event} {s t : State} (h : perform e s = .next t) :
    t.mem = s.mem ∨ ∃ who addr b, e = .store who addr b ∧ t.mem = s.mem.write addr b := by
  rcases perform_cases h with
    ⟨_, _, rfl⟩ | ⟨_, _, rfl⟩ | ⟨_, rfl⟩ | ⟨_, _, _, _, rfl⟩ | ⟨_, _, _, rfl⟩ | ⟨_, _, _, ha⟩ |
    ⟨who, addr, b, he, _, rfl⟩ | ⟨_, rfl⟩ | ⟨_, rfl⟩
  on_goal 6 => exact .inl (accept_next_mem ha)
  on_goal 6 => exact .inr ⟨who, addr, b, he, storeByte_mem s addr b⟩
  all_goals exact .inl (by simp)

/-- A step leaves the memory, or performs the store at the head of the schedule (R72). -/
theorem step_next_mem {s t : State} (h : step s = .next t) :
    t.mem = s.mem ∨ ∃ who addr b rest, s.queue = .store who addr b :: rest ∧ t.mem = s.mem.write addr b := by
  rcases step_cases h with ⟨_, _, rfl⟩ | ⟨_, _, _, _, _, _, rfl⟩ | ⟨_, _, _, ha⟩ | ⟨e, rest, hq, _, hp⟩
  · exact .inl (engineStep_mem s)
  · exact .inl (engineStep_mem s)
  · exact .inl (accept_next_mem ha :)
  · refine (perform_next_mem hp).imp_right ?_
    rintro ⟨who, addr, b, rfl, hm⟩
    exact ⟨who, addr, b, rest, hq, hm⟩

/-- Settles O52: the byte a store writes is the only one that then reads otherwise. -/
theorem onlyStoresChangeTheMemory : Obligations.OnlyStoresChangeTheMemory := by
  intro s t x hcanonical h hne
  rcases step_next_mem h with hm | ⟨who, addr, b, rest, hq, hm⟩
  · exact absurd (by rw [hm]) hne
  · rw [hm, memory_read_write s.mem hcanonical] at hne ⊢
    obtain rfl : x = addr := by_contra fun hx => hne (if_neg hx)
    exact ⟨who, b, rest, hq, if_pos rfl⟩

end Sys2Proof.Machine

/-! The encoding (30_encoding.md R100 to R113): the fields of a command word determine it, `encode` and `decodeWord` are
inverse, which words `decode` rejects, and how many it takes. -/

namespace Sys2Proof

open Machine (extract_toNat getLsbD_eq_iff sliceReadable_iff halfReadable_iff decode_of_ok decode_of_error accept_of_ok
  accept_of_decode_none)

/-! ## The fields of a word -/

/-- Two words that agree in the fields of R100 are equal: the fields cover the word. -/
theorem word_eq_of_fields {v w : Word} (hop : opField v = opField w) (hrsv0 : rsv0Field v = rsv0Field w)
    (htsel : tselField v = tselField w) (htidx : tidxField v = tidxField w) (hhsel : hselField v = hselField w)
    (hrsv1 : rsv1Field v = rsv1Field w) : v = w := by
  simp only [opField, rsv0Field, tselField, tidxField, rsv1Field, ← BitVec.toNat_inj, extract_toNat] at *
  have hbit : v.toNat / 2 ^ 20 % 2 = w.toNat / 2 ^ 20 % 2 := by
    rw [(getLsbD_eq_iff v 20 _).1 rfl, (getLsbD_eq_iff w 20 _).1 rfl]
    exact congrArg Bool.toNat hhsel
  omega

/-- TIDX is w[19:16] above NIDX. -/
theorem tidxField_eq_of_halves {v w : Word} (hhigh : tidxHighField v = tidxHighField w)
    (hlow : nidxField v = nidxField w) : tidxField v = tidxField w := by
  simp only [tidxField, tidxHighField, nidxField, ← BitVec.toNat_inj, extract_toNat] at *
  omega

/-- A word of only an OP field (R104 to R107) is its OP with no bit above. -/
theorem eq_setWidth_iff (w : Word) (op : Nibble) : w = op.setWidth 32 ↔ opField w = op ∧ w >>> 4 = 0 := by
  have hzero : (0 : Word).toNat = 0 := rfl
  simp only [opField, ← BitVec.toNat_inj, extract_toNat, BitVec.toNat_ushiftRight, Nat.shiftRight_eq_div_pow,
    BitVec.toNat_setWidth, hzero]
  omega

/-- OP 0x4 alone has no bit at or above bit 3. -/
theorem getLsbD_tableOp {i : Nat} (h : 3 ≤ i) : (0x00000004#32).getLsbD i = false := by
  have h2 : Nat.testBit 4 i = false := Nat.testBit_two_pow_of_ne (n := 2) (by omega)
  simp [BitVec.getLsbD_ofNat, h2]

/-- The operand fields of an RDTBL word (R108). -/
theorem encode_rdtbl_fields (k : Nibble) (b : Byte) :
    tselField (encode (.rdtbl k b)) = k ∧ tidxField (encode (.rdtbl k b)) = b ∧
    hselField (encode (.rdtbl k b)) = false := by
  refine ⟨BitVec.eq_of_getLsbD_eq fun i hi => ?_, BitVec.eq_of_getLsbD_eq fun i hi => ?_,
    by simp [hselField, encode]⟩
  · have hop := getLsbD_tableOp (show 3 ≤ 8 + i by omega)
    simp [tselField, encode, hop, hi, show i < 32 by omega, show 8 + i < 32 by omega, show 8 + i < 12 by omega,
      -BitVec.getLsbD_eq_getElem]
  · have hop := getLsbD_tableOp (show 3 ≤ 12 + i by omega)
    have hk : k.getLsbD (12 + i - 8) = false := BitVec.getLsbD_of_ge k _ (by omega)
    simp [tidxField, encode, hop, hk, hi, show i < 32 by omega, show 12 + i < 32 by omega,
      -BitVec.getLsbD_eq_getElem]

/-- The operand fields of an RDHTBL word (R108). -/
theorem encode_rdhtbl_fields (q : Nibble) :
    tselField (encode (.rdhtbl q)) = 0 ∧ tidxHighField (encode (.rdhtbl q)) = 0 ∧
    nidxField (encode (.rdhtbl q)) = q ∧ hselField (encode (.rdhtbl q)) = true := by
  revert q
  decide

/-! ## `encode` and `decodeWord` are inverse -/

@[simp] theorem decodeWord_encode (i : Instr) : decodeWord (encode i) = .ok i := by
  cases i with
  | nop | build | crc | crcpf => rfl
  | rdtbl k b =>
    obtain ⟨hop, hrsv0, hrsv1⟩ := Laws.ReservedZero.rdtbl k b
    obtain ⟨htsel, htidx, hhsel⟩ := encode_rdtbl_fields k b
    simp [decodeWord, Laws.ReservedZero.opcode, hop, hrsv0, hrsv1, htsel, htidx, hhsel]
  | rdhtbl q =>
    obtain ⟨hop, hrsv0, hrsv1⟩ := Laws.ReservedZero.rdhtbl q
    obtain ⟨htsel, hhigh, hnidx, hhsel⟩ := encode_rdhtbl_fields q
    simp [decodeWord, Laws.ReservedZero.opcode, hop, hrsv0, hrsv1, htsel, hhigh, hnidx, hhsel]

/-- Every command's word holds its operation code, and zeros in RSV0 and RSV1. -/
theorem encode_reservedZero (i : Instr) : Laws.ReservedZero.Statement i := by
  cases i with
  | nop => exact Laws.ReservedZero.nop
  | build => exact Laws.ReservedZero.build
  | crc => exact Laws.ReservedZero.crc
  | crcpf => exact Laws.ReservedZero.crcpf
  | rdtbl k b => exact Laws.ReservedZero.rdtbl k b
  | rdhtbl q => exact Laws.ReservedZero.rdhtbl q

/-- A word with a command's operation code, zeros in RSV0 and RSV1, and that command's operand fields is its word. -/
theorem eq_encode_of_fields {w : Word} {i : Instr} (hop : opField w = Laws.ReservedZero.opcode i)
    (hrsv : ¬ (rsv0Field w ≠ 0#4 ∨ rsv1Field w ≠ 0#11)) (htsel : tselField w = tselField (encode i))
    (htidx : tidxField w = tidxField (encode i)) (hhsel : hselField w = hselField (encode i)) : w = encode i := by
  obtain ⟨hop', hrsv0', hrsv1'⟩ := encode_reservedZero i
  obtain ⟨hrsv0, hrsv1⟩ : rsv0Field w = 0 ∧ rsv1Field w = 0 := by simpa using hrsv
  exact word_eq_of_fields (hop.trans hop'.symm) (hrsv0.trans hrsv0'.symm) htsel htidx hhsel (hrsv1.trans hrsv1'.symm)

/-- The conditions under which `decodeWord` answers a command are that command's fields. -/
theorem eq_encode_of_decodeWord {w : Word} {i : Instr} (h : decodeWord w = .ok i) : w = encode i := by
  unfold decodeWord at h
  split_ifs at h with _ h0 _ h1 _ h2 _ h3 hop hrsv hhsel htsel hhigh <;> cases h
  · exact h0
  · exact h1
  · exact h2
  · exact h3
  · obtain ⟨htsel', htidx', hhsel'⟩ := encode_rdtbl_fields (tselField w) (tidxField w)
    exact eq_encode_of_fields hop hrsv htsel'.symm htidx'.symm (hhsel.trans hhsel'.symm)
  · obtain ⟨htsel', hhigh', hnidx', hhsel'⟩ := encode_rdhtbl_fields (nidxField w)
    have htidx := tidxField_eq_of_halves ((not_not.1 hhigh).trans hhigh'.symm) hnidx'.symm
    exact eq_encode_of_fields hop hrsv ((not_not.1 htsel).trans htsel'.symm) htidx
      ((Bool.eq_true_of_not_eq_false hhsel).trans hhsel'.symm)

/-- Settles O1. -/
theorem decodeInvertsEncode : Obligations.DecodeInvertsEncode :=
  ⟨decodeWord_encode, fun _ _ => eq_encode_of_decodeWord⟩

theorem encode_injective : Function.Injective encode := by
  intro i j h
  have hok := decodeWord_encode i
  rw [h, decodeWord_encode] at hok
  exact (Except.ok.inj hok).symm

/-- R109's decoding answers a command exactly for that command's word, when the configuration and TVALID admit it. -/
theorem decode_eq_some_iff {cfg : Config} {tvalid : Bool} {w : Word} {i : Instr} :
    decode cfg tvalid w = some i ↔ i.wellFormed cfg tvalid = true ∧ w = encode i := by
  constructor
  · intro h
    cases hd : decodeWord w with
    | error e => simp [decode_of_error hd] at h
    | ok j =>
      rw [decode_of_ok hd, Option.ite_none_right_eq_some, Option.some_inj] at h
      obtain ⟨hwf, rfl⟩ := h
      exact ⟨hwf, eq_encode_of_decodeWord hd⟩
  · rintro ⟨hwf, rfl⟩
    rw [decode_of_ok (decodeWord_encode i), if_pos hwf]

/-- Settles O4. -/
theorem acceptRunsTheDecodedCommand : Obligations.AcceptRunsTheDecodedCommand := by
  intro s w i h
  obtain ⟨hwf, rfl⟩ := decode_eq_some_iff.1 h
  exact ⟨hwf, rfl, accept_of_ok (decodeWord_encode i) s⟩

/-- Settles O2. -/
theorem specWordsDecode : Obligations.SpecWordsDecode := by
  refine ⟨decodeWord_encode .nop, decodeWord_encode .build, decodeWord_encode .crc, decodeWord_encode .crcpf,
    decodeWord_encode (.rdtbl 1 0x80), decodeWord_encode (.rdhtbl 8), ?_, ?_⟩ <;> rfl

/-! ## ILLEGAL words -/

/-- A word with OP 0x0 to 0x3 is a command's exactly when no bit above OP is set (R104 to R107, R110). -/
theorem decode_eq_none_iff_of_op_le_three (cfg : Config) (tvalid : Bool) {w : Word} (h : (opField w).toNat ≤ 3) :
    decode cfg tvalid w = none ↔ w >>> 4 ≠ 0 := by
  have hop : opField w = 0#4 ∨ opField w = 1#4 ∨ opField w = 2#4 ∨ opField w = 3#4 := by bv_omega
  have hword : w = (opField w).setWidth 32 ↔ w >>> 4 = 0 := by simpa using eq_setWidth_iff w (opField w)
  rcases hop with hop | hop | hop | hop <;>
  · rw [hop] at hword
    rw [Ne, ← hword]
    simp [decode, hop]

/-- A table read's word is ILLEGAL by a reserved bit, or by a field or a condition of the read HSEL selects (R108 to
R110). -/
theorem decode_eq_none_iff_of_op_four (cfg : Config) (tvalid : Bool) {w : Word} (h : opField w = 4#4) :
    decode cfg tvalid w = none ↔
      (rsv0Field w ≠ 0 ∨ rsv1Field w ≠ 0) ∨
      (hselField w = false ∧ (cfg.strategy.nslices ≤ (tselField w).toNat ∨ tvalid = false)) ∨
      (hselField w = true ∧
         (tselField w ≠ 0 ∨ tidxHighField w ≠ 0 ∨ cfg.strategy ≠ .halfbyte ∨ tvalid = false)) := by
  cases hhsel : hselField w <;> simp [decode, h, hhsel, imp_iff_not_or, or_assoc]

/-- OP 0x5 to 0xF is no command's (R110). -/
theorem decode_eq_none_of_five_le_op (cfg : Config) (tvalid : Bool) {w : Word} (h : 5 ≤ (opField w).toNat) :
    decode cfg tvalid w = none := by
  have hne : ∀ op : Nibble, op.toNat ≤ 4 → opField w ≠ op := by bv_omega
  simp [decode, hne]

/-- Settles O3, by the ranges of OP. -/
theorem illegalWordsSetIllOnly : Obligations.IllegalWordsSetIllOnly := by
  refine ⟨fun cfg tvalid w => ?_, fun s w h => accept_of_decode_none h⟩
  rcases Nat.lt_trichotomy (opField w).toNat 4 with hlt | heq | hgt
  · have hfour : opField w ≠ 4#4 := by bv_omega
    rw [decode_eq_none_iff_of_op_le_three cfg tvalid (Nat.le_of_lt_succ hlt)]
    simp [hfour, Nat.le_of_lt_succ hlt, show ¬ 5 ≤ (opField w).toNat by omega]
  · have hfour : opField w = 4 := BitVec.eq_of_toNat_eq heq
    rw [decode_eq_none_iff_of_op_four cfg tvalid hfour]
    simp [hfour]
  · simp [decode_eq_none_of_five_le_op cfg tvalid hgt, Nat.succ_le_of_lt hgt]

/-! ## The legal words, counted -/

/-- The first `m` values of a field of `n` bits. -/
def firstValues (n m : Nat) : List (BitVec n) := (List.range m).map (BitVec.ofNat n)

@[simp] theorem length_firstValues (n m : Nat) : (firstValues n m).length = m := by
  rw [firstValues, List.length_map, List.length_range]

theorem mem_firstValues {n m : Nat} (hm : m ≤ 2 ^ n) (v : BitVec n) : v ∈ firstValues n m ↔ v.toNat < m := by
  simp only [firstValues, List.mem_map, List.mem_range]
  constructor
  · rintro ⟨a, ha, rfl⟩
    rwa [BitVec.toNat_ofNat, Nat.mod_eq_of_lt (ha.trans_le hm)]
  · exact fun h => ⟨v.toNat, h, by simp⟩

theorem nodup_firstValues {n m : Nat} (hm : m ≤ 2 ^ n) : (firstValues n m).Nodup := by
  refine List.nodup_range.map_on fun a ha b hb h => ?_
  rw [List.mem_range] at ha hb
  simpa [Nat.mod_eq_of_lt (ha.trans_le hm), Nat.mod_eq_of_lt (hb.trans_le hm)] using congrArg BitVec.toNat h

/-- The slice tables' numbers fit TSEL (R17, R100). -/
theorem nslices_le_two_pow (st : Strategy) : st.nslices ≤ 2 ^ 4 := by
  cases st <;> decide

/-- The legal RDTBL commands: every slice table, every entry (R113). -/
def legalSliceReads (cfg : Config) (tvalid : Bool) : List Instr :=
  if tvalid then (firstValues 4 cfg.strategy.nslices ×ˢ firstValues 8 256).map fun kb => .rdtbl kb.1 kb.2 else []

/-- The legal RDHTBL commands: every half-byte entry (R113). -/
def legalHalfReads (cfg : Config) (tvalid : Bool) : List Instr :=
  if cfg.halfReadable tvalid then (firstValues 4 16).map .rdhtbl else []

/-- The commands a configuration and TVALID admit, in the order of `legalWords`. -/
def legalCommands (cfg : Config) (tvalid : Bool) : List Instr :=
  [.nop, .build, .crc, .crcpf] ++ legalSliceReads cfg tvalid ++ legalHalfReads cfg tvalid

theorem legalWords_eq_map (cfg : Config) (tvalid : Bool) :
    legalWords cfg tvalid = (legalCommands cfg tvalid).map encode := by
  simp only [legalWords, legalCommands, legalSliceReads, legalHalfReads, firstValues, List.map_append,
    apply_ite (List.map encode)]
  simp [SProd.sprod, List.product, List.flatMap_map, List.map_flatMap, Function.comp_def]

theorem mem_legalSliceReads (cfg : Config) (tvalid : Bool) (i : Instr) :
    i ∈ legalSliceReads cfg tvalid ↔ ∃ k b, i = .rdtbl k b ∧ cfg.sliceReadable tvalid k = true := by
  have hmem : ∀ kb : Nibble × Byte, kb ∈ firstValues 4 cfg.strategy.nslices ×ˢ firstValues 8 256 ↔
      kb.1.toNat < cfg.strategy.nslices := fun kb => by
    rw [List.mem_product, mem_firstValues (nslices_le_two_pow _), mem_firstValues (n := 8) (m := 256) le_rfl,
      and_iff_left kb.2.isLt]
  unfold legalSliceReads
  split_ifs with ht
  · simp only [List.mem_map, hmem, sliceReadable_iff, ht, and_true, Prod.exists]
    exact ⟨fun ⟨k, b, hk, e⟩ => ⟨k, b, e.symm, hk⟩, fun ⟨k, b, e, hk⟩ => ⟨k, b, hk, e.symm⟩⟩
  · simp [sliceReadable_iff, ht]

theorem mem_legalHalfReads (cfg : Config) (tvalid : Bool) (i : Instr) :
    i ∈ legalHalfReads cfg tvalid ↔ ∃ q, i = .rdhtbl q ∧ cfg.halfReadable tvalid = true := by
  have hq (q : Nibble) : q.toNat < 16 := q.isLt
  cases h : cfg.halfReadable tvalid <;>
    simp [legalHalfReads, h, mem_firstValues (n := 4) (m := 16) le_rfl, hq, eq_comm]

theorem mem_legalCommands (cfg : Config) (tvalid : Bool) (i : Instr) :
    i ∈ legalCommands cfg tvalid ↔ i.wellFormed cfg tvalid = true := by
  cases i <;> simp [legalCommands, mem_legalSliceReads, mem_legalHalfReads, Instr.wellFormed]

theorem legalSliceReads_nodup (cfg : Config) (tvalid : Bool) : (legalSliceReads cfg tvalid).Nodup := by
  unfold legalSliceReads
  split_ifs
  · refine ((nodup_firstValues (nslices_le_two_pow _)).product (nodup_firstValues le_rfl)).map ?_
    rintro ⟨k, b⟩ ⟨k', b'⟩ h
    simpa using h
  · exact List.nodup_nil

theorem legalHalfReads_nodup (cfg : Config) (tvalid : Bool) : (legalHalfReads cfg tvalid).Nodup := by
  unfold legalHalfReads
  split_ifs
  · exact (nodup_firstValues le_rfl).map fun q q' h => by simpa using h
  · exact List.nodup_nil

theorem legalCommands_nodup (cfg : Config) (tvalid : Bool) : (legalCommands cfg tvalid).Nodup := by
  have hreads : (legalSliceReads cfg tvalid).Disjoint (legalHalfReads cfg tvalid) := by
    intro i hslice hhalf
    obtain ⟨k, b, rfl, -⟩ := (mem_legalSliceReads ..).1 hslice
    obtain ⟨q, h, -⟩ := (mem_legalHalfReads ..).1 hhalf
    cases h
  rw [legalCommands, List.append_assoc]
  refine List.Nodup.append (by decide) ((legalSliceReads_nodup ..).append (legalHalfReads_nodup ..) hreads) ?_
  simp [mem_legalSliceReads, mem_legalHalfReads]

theorem legalCommands_length (cfg : Config) :
    (legalCommands cfg true).length =
      4 + cfg.strategy.nslices * 256 + (if cfg.strategy = .halfbyte then 16 else 0) := by
  have hslice : (legalSliceReads cfg true).length = cfg.strategy.nslices * 256 := by
    simp [legalSliceReads, List.length_product]
  have hhalf : (legalHalfReads cfg true).length = if cfg.strategy = .halfbyte then 16 else 0 := by
    simp [legalHalfReads, apply_ite List.length, halfReadable_iff]
  rw [legalCommands, List.length_append, List.length_append, hslice, hhalf]
  rfl

/-- Settles O5. -/
theorem legalWordCount : Obligations.LegalWordCount := by
  have hlength : ∀ cfg : Config, (legalWords cfg true).length =
      4 + cfg.strategy.nslices * 256 + (if cfg.strategy = .halfbyte then 16 else 0) := fun cfg => by
    rw [legalWords_eq_map, List.length_map, legalCommands_length]
  refine ⟨fun cfg tvalid w => ?_, fun cfg tvalid => ?_, hlength, hlength Config.default⟩
  · calc w ∈ legalWords cfg tvalid
        ↔ ∃ i, i.wellFormed cfg tvalid = true ∧ w = encode i := by
          simp [legalWords_eq_map, mem_legalCommands, eq_comm (a := w)]
      _ ↔ ∃ i, decode cfg tvalid w = some i := by simp only [decode_eq_some_iff]
      _ ↔ decode cfg tvalid w ≠ none := Option.ne_none_iff_exists'.symm
  · rw [legalWords_eq_map]
    exact (legalCommands_nodup cfg tvalid).map encode_injective

end Sys2Proof

/-! What the acceptance step of a command leaves unchanged (30_encoding.md R102, 10_state.md R46, 60_exceptions.md
R226), and the host's two statements that read a register before they go on (R115). -/

namespace Sys2Proof.Machine

/-! ## The frame of a command's acceptance -/

/-- What the range check and the start of the fold leave unchanged besides `startFold_frame` (R160, R222). -/
theorem startFold_state_frame (s : State) :
    s.startFold.addrLo = s.addrLo ∧ s.startFold.addrHi = s.addrHi ∧ s.startFold.lenLo = s.lenLo ∧
    s.startFold.lenHi = s.lenHi ∧ s.startFold.pfdLo = s.pfdLo ∧ s.startFold.pfdHi = s.pfdHi ∧
    s.startFold.tables = s.tables ∧ s.startFold.half = s.half ∧ s.startFold.tvalid = s.tvalid ∧
    s.startFold.bk = s.bk ∧ s.startFold.bi = s.bi ∧ s.startFold.waiting = s.waiting ∧ s.startFold.queue = s.queue ∧
    s.startFold.readLog = s.readLog ∧ s.startFold.modelFaults = s.modelFaults ∧ s.startFold.free = s.free := by
  rcases startFold_cases s with ⟨_, e⟩ | ⟨_, e⟩ <;> simp [e]

section
variable {i : Instr} {s t : State} (h : exec i s = .next t)
include h

/-- No acceptance writes an operand register or a table, or touches the host's and the model's own records (R46,
R102). -/
theorem exec_next_frame :
    t.addrLo = s.addrLo ∧ t.addrHi = s.addrHi ∧ t.lenLo = s.lenLo ∧ t.lenHi = s.lenHi ∧ t.pfdLo = s.pfdLo ∧
    t.pfdHi = s.pfdHi ∧ t.tables = s.tables ∧ t.half = s.half ∧ t.waiting = s.waiting ∧ t.queue = s.queue ∧
    t.readLog = s.readLog ∧ t.modelFaults = s.modelFaults ∧ t.free = s.free := by
  rcases exec_cases i s with
    ⟨_, e⟩ | ⟨_, _, e⟩ | ⟨_, _, e⟩ | ⟨_, e⟩ | ⟨_, e⟩ | ⟨_, _, e⟩ | ⟨_, e⟩ <;>
  · cases e.symm.trans h
    simp [startFold_state_frame]

/-- Only a BUILD changes TVALID and the builder's indices (R138). -/
theorem exec_next_builder (hi : i ≠ .build) : t.tvalid = s.tvalid ∧ t.bk = s.bk ∧ t.bi = s.bi := by
  rcases exec_cases i s with
    ⟨_, e⟩ | ⟨hb, _, _⟩ | ⟨hb, _, _⟩ | ⟨_, e⟩ | ⟨_, e⟩ | ⟨_, _, e⟩ | ⟨_, e⟩
  case inr.inl | inr.inr.inl => exact absurd hb hi
  all_goals
    cases e.symm.trans h
    simp [startFold_state_frame]

/-- With no checksum command nothing is latched, and the fold and its port keep their values (R46, R160). -/
theorem exec_next_latches (hcrc : i ≠ .crc) (hcrcpf : i ≠ .crcpf) :
    t.a = s.a ∧ t.n = s.n ∧ t.p = s.p ∧ t.d = s.d ∧ t.c = s.c ∧ t.cur = s.cur ∧ t.rem = s.rem ∧ t.dp = s.dp ∧
    t.pfOn = s.pfOn ∧ t.reads = s.reads ∧ t.hints = s.hints ∧ t.raced = s.raced := by
  rcases exec_cases i s with
    ⟨_, e⟩ | ⟨_, _, e⟩ | ⟨_, _, e⟩ | ⟨hi, _⟩ | ⟨hi, _⟩ | ⟨_, _, e⟩ | ⟨_, e⟩
  case inr.inr.inr.inl => exact absurd hi hcrc
  case inr.inr.inr.inr.inl => exact absurd hi hcrcpf
  all_goals
    cases e.symm.trans h
    simp

/-- Only a BUILD and a checksum command move the sequencer (R50). -/
theorem exec_next_phase (hbuild : i ≠ .build) (hcrc : i ≠ .crc) (hcrcpf : i ≠ .crcpf) : t.phase = s.phase := by
  rcases exec_cases i s with
    ⟨_, e⟩ | ⟨hi, _, _⟩ | ⟨hi, _, _⟩ | ⟨hi, _⟩ | ⟨hi, _⟩ | ⟨_, _, e⟩ | ⟨_, e⟩
  case inr.inl | inr.inr.inl => exact absurd hi hbuild
  case inr.inr.inr.inl => exact absurd hi hcrc
  case inr.inr.inr.inr.inl => exact absurd hi hcrcpf
  all_goals
    cases e.symm.trans h
    simp

end

/-- Settles O30. -/
theorem commandFrame : Obligations.CommandFrame := by
  intro i s t h
  have hresult : (∀ k b, i ≠ .rdtbl k b) → (∀ q, i ≠ .rdhtbl q) → t.result = s.result := by
    intro hrdtbl hrdhtbl
    by_contra hne
    rcases exec_next_result h hne with ⟨_, ⟨k, b, hi, _⟩ | ⟨q, hi, _⟩⟩
    · exact hrdtbl k b hi
    · exact hrdhtbl q hi
  simpa [exec_next_mem h, exec_next_cfg h, exec_next_operands h, exec_next_frame h] using
    ⟨exec_next_builder h, hresult, exec_next_latches h, exec_next_phase h⟩

/-! ## `chain` and `poll` -/

/-- Settles O55: the write of PREV that `chain` leaves at the head of the schedule is performed at once. -/
theorem chainThreadsTheResult : Obligations.ChainThreadsTheResult := by
  intro s rest hq hw
  refine ⟨_, step_of_queue_cons (.inl hw) hq, rfl, rfl, ?_⟩
  exact step_of_isRegWrite (off := offPREV) hw rfl (by decide) (by decide) (.inl rfl)

/-- Settles O56: `poll` puts an engine event at the head of the schedule, and itself behind it. -/
theorem pollRepeatsWhileBusy : Obligations.PollRepeatsWhileBusy := by
  intro s rest hq hw
  have hpoll : step s = hostPoll { s with queue := rest } := step_of_queue_cons (.inl hw) hq
  refine ⟨fun hb => hpoll.trans (if_neg fun h => ?_), fun hb => ⟨hpoll.trans (if_pos hb), ?_⟩⟩
  · exact Bool.false_ne_true (hb.symm.trans h)
  · exact step_of_queue_cons (e := .engine) (rest := .poll :: rest) (.inl hw) rfl

end Sys2Proof.Machine

/-! The table builder and the commands that touch the tables (40_table_builder.md R131 to R142): the entries' closed form,
the end of a build, and what NOP, BUILD and the table reads answer. -/

namespace Sys2Proof.Machine

/-! ## The entries' values -/

/-- A half-byte entry is the base entry of the half-byte moved up: four bit steps shift it back down (R135). -/
theorem halfEntry_eq_baseEntry (q : Nibble) : halfEntry q = baseEntry (q.setWidth 8 <<< 4) := by
  have hlow : ∀ i < 4, ((q.setWidth 8 <<< 4).setWidth 32).getLsbD i = false := fun i hi => by simp [hi]
  have hback : (q.setWidth 8 <<< 4).setWidth 32 >>> 4 = q.setWidth 32 := by
    revert q
    decide
  calc halfEntry q = bitsteps 4 ((q.setWidth 8 <<< 4).setWidth 32 >>> 4) := by rw [hback, halfEntry]
    _ = bitsteps 4 (bitsteps 4 ((q.setWidth 8 <<< 4).setWidth 32)) := by rw [bitsteps_shift 4 _ hlow]
    _ = baseEntry (q.setWidth 8 <<< 4) := (bitsteps_add 4 4 _).symm

/-- Settles O6. -/
theorem sliceEntryPassesZeroBytes : Obligations.SliceEntryPassesZeroBytes :=
  ⟨sliceEntry_eq_bitsteps, bitstep_xor, halfEntry_eq_baseEntry⟩

/-! ## NOP, BUILD and the table reads -/

/-- Settles O20. -/
theorem nopOnlyClearsErrors : Obligations.NopOnlyClearsErrors :=
  ⟨rfl, fun _ => rfl, fun _ hb => if_pos hb⟩

theorem builds_iff (cfg : Config) :
    cfg.builds = true ↔ cfg.strategy.needsTables = true ∧ cfg.tableInit ≠ .rom := by
  simp [Config.builds]

theorem exec_build_of_builds {s : State} (h : s.cfg.builds = true) :
    exec .build s = .next { s.clearErrors with tvalid := false, phase := .building, bk := 0, bi := 0 } :=
  if_pos h

theorem exec_build_of_not_builds {s : State} (h : ¬ s.cfg.builds = true) : exec .build s = .next s.clearErrors :=
  if_neg h

/-- Settles O21. -/
theorem buildStartsTheBuilder : Obligations.BuildStartsTheBuilder := by
  refine ⟨fun s hneeds hinit => exec_build_of_builds ((builds_iff _).2 ⟨hneeds, hinit⟩), fun s hnone => ?_⟩
  refine exec_build_of_not_builds fun hb => ?_
  obtain ⟨hneeds, hinit⟩ := (builds_iff _).1 hb
  rcases hnone with hn | hrom
  · exact Bool.false_ne_true (hn.symm.trans hneeds)
  · exact hinit hrom

/-- Settles O22. -/
theorem rdtblReadsTheEntry : Obligations.RdtblReadsTheEntry := fun _ _ _ =>
  ⟨rfl, fun h => if_pos ((sliceReadable_iff _ _ _).2 h), fun h => if_neg fun hr => h ((sliceReadable_iff _ _ _).1 hr)⟩

/-- Settles O23. -/
theorem rdhtblReadsTheEntry : Obligations.RdhtblReadsTheEntry := fun _ _ =>
  ⟨rfl, fun h => if_pos ((halfReadable_iff _ _).2 h), fun h => if_neg fun hr => h ((halfReadable_iff _ _).1 hr)⟩

/-- Settles O24: the invariant gives the tables their values when TVALID = 1 (R54). -/
theorem tableReadsReturnBuiltValues : Obligations.TableReadsReturnBuiltValues := by
  intro s h hv
  obtain ⟨htables, hhalf⟩ := h.tablesValid hv
  refine ⟨fun k b hk => ?_, fun q hst => ?_⟩
  · obtain ⟨_, hread, _⟩ := rdtblReadsTheEntry k b s
    exact ⟨_, hread ⟨hk, hv⟩, tableEntry_built s htables _ hk b⟩
  · obtain ⟨_, hread, _⟩ := rdhtblReadsTheEntry q s
    have hh : s.cfg.strategy.hasHalf = true := by rw [hst]; rfl
    exact ⟨_, hread ⟨hst, hv⟩, halfTableEntry_built s hhalf hh q⟩

/-! ## A build comes to its end -/

/-- The number of entries a running build has still to write (R136). -/
def State.entriesLeft (s : State) : Nat :=
  (s.cfg.strategy.nslices - s.bk) * 256 + (if s.cfg.strategy.hasHalf then 16 else 0) - s.bi

theorem entriesLeft_le (s : State) : s.entriesLeft ≤ s.cfg.strategy.nslices * 256 + 16 := by
  unfold State.entriesLeft
  split <;> omega

theorem entriesLeft_pos {s : State} (h : s.builderInRange) : 0 < s.entriesLeft := by
  unfold State.entriesLeft
  rcases h with ⟨hk, hi⟩ | ⟨_, hh, hi⟩
  · omega
  · rw [if_pos hh]
    omega

/-- A step that ends the build leaves the state in which builds end: under the invariant TVALID = 1 says that the tables
are built (R54, R136). -/
theorem Inv.endBuild_eq_finishBuild {s : State} {tables : List (List Word)} {half : List Word}
    (h : Inv (State.endBuild { s with tables := tables, half := half })) :
    State.endBuild { s with tables := tables, half := half } = s.finishBuild := by
  obtain ⟨ht, hh⟩ : tables = builtTables s.cfg ∧ half = builtHalf s.cfg := h.tablesValid rfl
  rw [ht, hh]
  rfl

/-- A step of the build phase ends it in the state of R136, or writes one entry and leaves where the build will end. -/
theorem buildStep_ends_or_continues {s : State} (h : Inv s) (hp : s.phase = .building) :
    s.buildStep = s.finishBuild ∨
    (s.buildStep.phase = .building ∧ s.buildStep.finishBuild = s.finishBuild ∧
      s.buildStep.entriesLeft + 1 = s.entriesLeft) := by
  have hinv := h.buildStep hp
  have hplace := (h.building hp).place
  unfold State.builderInRange at hplace
  rcases buildStep_cases s with ⟨_, _, e⟩ | ⟨_, _, _, e⟩ | ⟨_, _, _, _, e⟩ | ⟨_, hh, _, e⟩ | ⟨_, _, _, e⟩ | ⟨_, _, e⟩ <;>
    rw [e] at hinv ⊢
  case inl | inr.inl =>
    refine .inr ⟨hp, rfl, ?_⟩
    simp only [State.entriesLeft, setTableEntry_fields]
    omega
  case inr.inr.inr.inl =>
    refine .inr ⟨hp, rfl, ?_⟩
    simp only [State.entriesLeft, setHalfEntry_fields, if_pos hh]
    omega
  all_goals exact .inl hinv.endBuild_eq_finishBuild

/-- As many engine steps as there are entries left bring a build to the state of R136. -/
theorem engineSteps_entriesLeft {s : State} (h : Inv s) (hp : s.phase = .building) :
    State.engineSteps s.entriesLeft s = s.finishBuild := by
  induction hn : s.entriesLeft generalizing s with
  | zero =>
    have hpos := entriesLeft_pos (h.building hp).place
    omega
  | succ n ih =>
    have hstep : s.engineStep = s.buildStep := by simp [State.engineStep, hp]
    rw [State.engineSteps, hstep]
    rcases buildStep_ends_or_continues h hp with e | ⟨hp', hsame, hleft⟩
    · rw [e, engineSteps_of_idle n _ (by simp)]
    · rw [ih (h.buildStep hp) hp' (by omega), hsame]

/-- Settles O39. -/
theorem buildEndsWithTheTables : Obligations.BuildEndsWithTheTables := fun s h hp =>
  ⟨s.entriesLeft, entriesLeft_le s, engineSteps_entriesLeft h hp⟩

/-- Settles O40: the tables found had the values that the build gives them (R54). -/
theorem rebuildKeepsTheTables : Obligations.RebuildKeepsTheTables := by
  intro s h hb hv
  by_cases hbuilds : s.cfg.builds = true
  · obtain ⟨m, _, hend⟩ := buildEndsWithTheTables _ (h.startBuild hbuilds) rfl
    obtain ⟨htables, hhalf⟩ := h.tablesValid hv
    refine ⟨_, exec_build_of_builds hbuilds, m, ?_⟩
    rw [hend]
    exact ⟨htables.symm, hhalf.symm, rfl, rfl⟩
  · exact ⟨_, exec_build_of_not_builds hbuilds, 0, rfl, rfl, hv, hb⟩

end Sys2Proof.Machine

/-! The checksum's values (41_checksum.md R163 to R172, R178): the datapaths' steps agree, R166's circuit among them. -/

namespace Sys2Proof

/-- What R166's realisation XORs into the shifted working CRC, from the index s = c[7:0] ^ d alone. -/
def circuitEntry (s : Byte) : Word :=
  let low : Word := (s ^^^ (s <<< 6)).setWidth 32
  let x : Word := low * 0x00804004#32
  (low * 0x01010100#32) ^^^ x ^^^ (x >>> 1) ^^^ (low * 0x00101000#32) ^^^ (low <<< 19) ^^^ (low <<< 17) ^^^ (low >>> 2)

/-- The realisation is a BYTE step whose table is computed. -/
theorem bytestepTlCircuit_eq (c : Word) (d : Byte) : bytestepTlCircuit c d = bytestepTab circuitEntry c d := by
  simp only [bytestepTlCircuit, bytestepTab, circuitEntry, BitVec.xor_assoc]

/-- The circuit computes the base table, entry by entry (R132, R166). -/
theorem circuitEntry_eq_baseEntry : ∀ s : Byte, circuitEntry s = baseEntry s := by
  decide

theorem bytestepTlCircuit_eq_bytestepBit (c : Word) (d : Byte) : bytestepTlCircuit c d = bytestepBit c d := by
  rw [bytestepTlCircuit_eq, funext circuitEntry_eq_baseEntry, bytestepTab_baseEntry]

/-- Settles O7. The TABLELESS step is by definition the BYTE step over the base table. -/
theorem byteStepsAgree : Obligations.ByteStepsAgree := fun c d =>
  ⟨bytestepTab_baseEntry c d, bytestepTab_baseEntry c d, bytestepTlCircuit_eq_bytestepBit c d,
    bytestepHalf_halfEntry c d⟩

/-- Settles O8: the slicing step agrees for every group of at least four bytes. -/
theorem slicingStepIsByteSteps : Obligations.SlicingStepIsByteSteps := by
  rintro _ c ds hN rfl
  exact slicestep_sliceEntry c ds (by omega)

/-- Settles O9: for each group size the fold over the positions is unrolled. -/
theorem slicingStepsWrittenOut : Obligations.SlicingStepsWrittenOut := by
  refine ⟨?_, ?_, ?_⟩
  all_goals
    intros
    simp +zetaDelta [slicestep, List.range_succ]

/-- Settles O10: the two complements between the parts cancel. -/
theorem checksumsCompose : Obligations.ChecksumsCompose := fun p b1 b2 => by
  rw [crc32, crc32, crc32, BitVec.not_not, List.foldl_append]

end Sys2Proof

/-! The checksum commands (41_checksum.md R160, R168 to R181): a datapath step folds the next bytes, completion writes
the reference value of the buffer. -/

namespace Sys2Proof.Machine

/-! ## One step of a running command -/

/-- A running command with no byte left completes (R176). -/
theorem engineStep_of_rem_zero {s : State} (hp : s.phase = .running) (hr : s.rem = 0) : s.engineStep = s.complete := by
  simp [State.engineStep, hp, hr]

/-- Settles O34. -/
theorem completionWritesResult : Obligations.CompletionWritesResult := by
  intro s hp hr
  rw [engineStep_of_rem_zero hp hr]
  exact ⟨rfl, rfl⟩

/-- A step whose bytes answer, none of them overwritten, folds the memory's bytes as the BITWISE step does (R168, R173,
R174). -/
theorem engineStep_of_answers {s : State} (h : Inv s) (hp : s.phase = .running) (hr : s.rem ≠ 0)
    (hraced : s.raced = []) (hok : bufferAnswers s.cfg s.cur s.stepSize) :
    s.engineStep =
      { s.portStep with
        c := (s.mem.bytes s.cur s.stepSize).foldl bytestepBit s.c
        cur := s.cur + s.stepSize
        rem := s.rem - s.stepSize } := by
  have hread := readGroup_of_answers s hraced s.cur s.stepSize hok
  simp only [State.engineStep, hp, if_neg hr, State.datapathStep, hread, running_foldBytes h hp]

/-- Settles O32. -/
theorem datapathStepFoldsTheNextBytes : Obligations.DatapathStepFoldsTheNextBytes := by
  intro s h hp hr hraced k hok
  obtain ⟨_, hsize⟩ := stepSize_le s hr
  rw [engineStep_of_answers h hp hr hraced hok]
  refine ⟨rfl, rfl, Nat.sub_add_cancel hsize, ?_, hp, rfl, rfl⟩
  exact congrArg (s.reads ++ ·) (readsMade_of_answers s s.cur s.stepSize hok)

/-! ## The run to its completion -/

/-- In `u` a checksum command has returned the reference value of the `n` bytes from `a`, begun with `p`; the memory,
the tables and TVALID are those of `s` (R73, R160, R181). -/
structure ReturnsReference (s u : State) (a n : Nat) (p : Word) : Prop where
  busy : u.busy = false
  result : u.result = crc32 p (s.mem.bytes a n)
  reads : u.reads = List.range' a n
  ill : u.ill = false
  berr : u.berr = false
  tvalid : u.tvalid = s.tvalid
  tables : u.tables = s.tables
  half : u.half = s.half
  mem : u.mem = s.mem

theorem ReturnsReference.of_same {s t u : State} {a n : Nat} {p : Word} (h : ReturnsReference t u a n p)
    (htvalid : t.tvalid = s.tvalid) (htables : t.tables = s.tables) (hhalf : t.half = s.half) (hmem : t.mem = s.mem) :
    ReturnsReference s u a n p :=
  { h with
    result := hmem ▸ h.result
    tvalid := h.tvalid.trans htvalid
    tables := h.tables.trans htables
    half := h.half.trans hhalf
    mem := h.mem.trans hmem }

/-- Once no byte is left, the fold and the record of reads cover the whole buffer. -/
theorem running_consumed {s : State} (h : Inv s) (hp : s.phase = .running) (hr : s.rem = 0) (hraced : s.raced = []) :
    s.c = (s.mem.bytes s.a.toNat s.n.toNat).foldl bytestepBit (~~~ s.p) ∧
    s.reads = List.range' s.a.toNat s.n.toNat := by
  obtain ⟨_, hplace, _, _, hreads, hfolded⟩ := h.running hp
  have hall : s.cur - s.a.toNat = s.n.toNat := by omega
  rw [hall] at hreads hfolded
  exact ⟨hfolded hraced, hreads ▸ h.readsInOrder⟩

theorem complete_returnsReference {s : State} (h : Inv s) (hp : s.phase = .running) (hr : s.rem = 0)
    (hraced : s.raced = []) : ReturnsReference s s.complete s.a.toNat s.n.toNat s.p := by
  obtain ⟨hc, hreads⟩ := running_consumed h hp hr hraced
  obtain ⟨hill, hberr⟩ := h.busyNoError (by simp [hp])
  exact ⟨rfl, congrArg (~~~ ·) hc, hreads, hill, hberr, rfl, rfl, rfl, rfl⟩

/-- Any number of engine steps above rem brings a command to its completion, when its buffer answers and is not
overwritten (R160, R176). -/
theorem engineSteps_returnsReference (k : Nat) {s : State} (h : Inv s) (hp : s.phase = .running)
    (hraced : s.raced = []) (hok : bufferAnswers s.cfg s.a.toNat s.n.toNat) (hk : s.rem < k) :
    ReturnsReference s (State.engineSteps k s) s.a.toNat s.n.toNat s.p := by
  induction k generalizing s with
  | zero => omega
  | succ k ih =>
    rw [State.engineSteps]
    by_cases hr : s.rem = 0
    · rw [engineStep_of_rem_zero hp hr, engineSteps_of_idle k _ rfl]
      exact complete_returnsReference h hp hr hraced
    · have hsize := stepSize_le s hr
      obtain ⟨_, hplace, hstart, _⟩ := h.running hp
      have hgroup : bufferAnswers s.cfg s.cur s.stepSize := fun i hi => by
        have hmem := hok (s.cur - s.a.toNat + i) (by omega)
        rwa [← Nat.add_assoc, Nat.add_sub_cancel' hstart] at hmem
      obtain ⟨_, _, hrem, _, hp', _⟩ := datapathStepFoldsTheNextBytes s h hp hr hraced hgroup
      have hless : s.engineStep.rem < k := by
        change s.engineStep.rem + s.stepSize = s.rem at hrem
        omega
      have hframe := engineStep_frame s
      obtain ⟨htables, hhalf, htvalid, _⟩ := engineStep_tables_frame (s := s) (by simp [hp])
      have hend := ih h.engineStep hp' (by simp [hframe, hraced]) (by simpa [hframe] using hok) hless
      simp only [hframe] at hend
      exact hend.of_same htvalid htables hhalf (by simp)

/-! ## From the acceptance to the result -/

/-- The run begins when the latched buffer is in range (R160, R222). -/
theorem startFold_of_fits {s : State} (hfit : s.a.toNat + s.n.toNat ≤ s.cfg.space) :
    s.startFold =
      { s with c := ~~~ s.p, dp := s.selected, cur := s.a.toNat, rem := s.n.toNat, phase := .running } := by
  rcases startFold_cases s with ⟨_, e⟩ | ⟨hover, _⟩
  · exact e
  · exact absurd hfit (Nat.not_le.2 hover)

section
variable {i : Instr} {s : State} (hi : i = .crc ∨ i = .crcpf) (hfit : s.addr.toNat + s.len.toNat ≤ s.cfg.space)
include hi hfit

/-- Accepting a checksum command latches the operands and starts the run (R46, R160, R200). -/
theorem exec_checksum_starts :
    ∃ t, exec i s = .next t ∧ t.phase = .running ∧ t.a = s.addr ∧ t.n = s.len ∧ t.p = s.prev ∧ t.rem = s.len.toNat ∧
      t.raced = [] := by
  rcases hi with rfl | rfl
  · exact ⟨_, congrArg Host.Outcome.next (startFold_of_fits (s := s.clearErrors.latch) hfit),
      rfl, rfl, rfl, rfl, rfl, rfl⟩
  · exact ⟨_, congrArg Host.Outcome.next (startFold_of_fits (s := s.clearErrors.latchPf) hfit),
      rfl, rfl, rfl, rfl, rfl, rfl⟩

/-- LEN + 1 engine steps after its acceptance a checksum command has returned the reference value (R181). -/
theorem exec_checksum_returnsReference (h : Inv s) (hb : s.busy = false)
    (hok : bufferAnswers s.cfg s.addr.toNat s.len.toNat) :
    ∃ t, exec i s = .next t ∧
      ReturnsReference s (State.engineSteps (s.len.toNat + 1) t) s.addr.toNat s.len.toNat s.prev := by
  obtain ⟨t, hexec, hp, ha, hn, hprev, hrem, hraced⟩ := exec_checksum_starts hi hfit
  obtain ⟨_, _, _, _, _, _, htables, hhalf, _⟩ := exec_next_frame hexec
  obtain ⟨htvalid, _⟩ := exec_next_builder hexec (by rintro rfl; simp at hi)
  have hinv := h.exec ((busy_eq_false_iff s).1 hb) hexec
  have hend := engineSteps_returnsReference (s.len.toNat + 1) hinv hp hraced
    (by rwa [exec_next_cfg hexec, ha, hn]) (by omega)
  rw [ha, hn, hprev] at hend
  exact ⟨t, hexec, hend.of_same htvalid htables hhalf (exec_next_mem hexec)⟩

end

/-- Settles O35, with m = LEN + 1. -/
theorem checksumCommandsReturnTheReference : Obligations.ChecksumCommandsReturnTheReference := by
  intro i s hi h hb hfit hok
  obtain ⟨t, hexec, hend⟩ := exec_checksum_returnsReference hi hfit h hb hok
  exact ⟨t, hexec, s.len.toNat + 1, le_refl _, hend.busy, hend.result, hend.reads, hend.ill, hend.berr, hend.tvalid,
    hend.tables, hend.half, fun x => by rw [hend.mem]⟩

/-- Settles O36: the checksum of no bytes complements PREV twice. -/
theorem zeroLengthReturnsPrev : Obligations.ZeroLengthReturnsPrev := by
  intro s h hb hlen
  have hzero : s.len.toNat = 0 := by rw [hlen]; rfl
  have hfit : s.addr.toNat + s.len.toNat ≤ s.cfg.space := by rw [hzero]; exact h.addrHardwired.le
  obtain ⟨t, hexec, hend⟩ := exec_checksum_returnsReference (.inl rfl) hfit h hb (fun i hi => by omega)
  rw [hzero] at hend
  exact ⟨t, hexec, hend.result.trans BitVec.not_not, hend.reads, hend.busy, hend.berr⟩

end Sys2Proof.Machine

/-! CRCPF, the prefetching checksum command (42_prefetch.md R200 to R206): it is a CRC but for the hints, and where a step
may put one. -/

namespace Sys2Proof.Machine

/-! ## The acceptance -/

/-- Settles O26: the range check of the latched buffer passes, as for a CRC. -/
theorem crcpfStartsTheRun : Obligations.CrcpfStartsTheRun := fun s hfit =>
  congrArg Host.Outcome.next (startFold_of_fits (s := s.clearErrors.latchPf) hfit)

/-! ## Neutrality

The state with the CRCPF switch off and no hint on record is that of a CRC, and the hints are read by nothing (R202, R203):
every operation of a run commutes with `State.withoutPrefetch`. -/

theorem startFold_withoutPrefetch (s : State) : s.withoutPrefetch.startFold = s.startFold.withoutPrefetch := by
  simp only [State.startFold, apply_ite State.withoutPrefetch]
  rfl

theorem buildStep_withoutPrefetch (s : State) : s.withoutPrefetch.buildStep = s.buildStep.withoutPrefetch := by
  simp only [State.buildStep, apply_ite State.withoutPrefetch]
  rfl

theorem readGroup_withoutPrefetch (s : State) (addr k : Nat) :
    s.withoutPrefetch.readGroup addr k = s.readGroup addr k := by
  induction k generalizing addr with
  | zero => rfl
  | succ k ih =>
    rw [State.readGroup, State.readGroup, ih]
    rfl

theorem readsMade_withoutPrefetch (s : State) (addr k : Nat) :
    s.withoutPrefetch.readsMade addr k = s.readsMade addr k := by
  induction k generalizing addr with
  | zero => rfl
  | succ k ih =>
    rw [State.readsMade, State.readsMade, ih]
    rfl

/-- With the switch off the step sends no hint (R206); its reads are the same. -/
theorem portStep_withoutPrefetch (s : State) : s.withoutPrefetch.portStep = s.portStep.withoutPrefetch := by
  have hnone : s.withoutPrefetch.stepHints = [] := stepHints_eq_nil (.inl rfl)
  rw [State.portStep, hnone, readsMade_withoutPrefetch]
  rfl

theorem datapathStep_withoutPrefetch (s : State) :
    s.withoutPrefetch.datapathStep = s.datapathStep.withoutPrefetch := by
  have hread : s.withoutPrefetch.readGroup s.withoutPrefetch.cur s.withoutPrefetch.stepSize =
      s.readGroup s.cur s.stepSize := readGroup_withoutPrefetch s s.cur s.stepSize
  rw [State.datapathStep, State.datapathStep, hread, portStep_withoutPrefetch]
  cases s.readGroup s.cur s.stepSize <;> rfl

/-- An engine step of a CRCPF is that of the CRC, but for the hints (R203). -/
theorem engineStep_withoutPrefetch (s : State) : s.withoutPrefetch.engineStep = s.engineStep.withoutPrefetch := by
  rw [State.engineStep, State.engineStep, (show s.withoutPrefetch.phase = s.phase from rfl)]
  cases s.phase with
  | idle => rfl
  | building => exact buildStep_withoutPrefetch s
  | running =>
    simp only [apply_ite State.withoutPrefetch, ← datapathStep_withoutPrefetch]
    rfl

theorem engineSteps_withoutPrefetch (m : Nat) (s : State) :
    State.engineSteps m s.withoutPrefetch = (State.engineSteps m s).withoutPrefetch := by
  induction m generalizing s with
  | zero => rfl
  | succ m ih => rw [State.engineSteps, State.engineSteps, engineStep_withoutPrefetch, ih]

/-- CRC and CRCPF latch the same (R46, R200). -/
theorem startFold_latchPf_withoutPrefetch (s : State) :
    s.latchPf.startFold.withoutPrefetch = s.latch.startFold.withoutPrefetch := by
  rw [← startFold_withoutPrefetch, ← startFold_withoutPrefetch]
  rfl

/-- Settles O37: both runs are that of the state without its hints, and it has their RESULT, STATUS and reads. -/
theorem prefetchIsNeutral : Obligations.PrefetchIsNeutral := by
  intro s
  refine ⟨_, _, rfl, rfl, fun m => ?_⟩
  have h : (State.engineSteps m s.clearErrors.latchPf.startFold).withoutPrefetch =
      (State.engineSteps m s.clearErrors.latch.startFold).withoutPrefetch := by
    rw [← engineSteps_withoutPrefetch, startFold_latchPf_withoutPrefetch, engineSteps_withoutPrefetch]
  exact ⟨h, (congrArg State.result h :), (congrArg State.status h :), (congrArg State.reads h :)⟩

/-! ## Where a hint may be -/

/-- Every case of a step's hints: none, or one for the group whose first byte is at cur (R200, R201, R204, R206). -/
theorem stepHints_cases (s : State) :
    s.stepHints = [] ∨
    (s.pfOn = true ∧ s.cfg.pfImpl = true ∧ s.atGroupStart = true ∧
      ((s.cur + s.d.toNat < s.a.toNat + s.n.toNat ∧ s.stepHints = [s.cur + s.d.toNat]) ∨
       (s.a.toNat + s.n.toNat ≤ s.cur + s.d.toNat ∧ s.stepHints = [s.a.toNat + s.n.toNat - 1]))) := by
  unfold State.stepHints
  split
  · rename_i hsent
    simp only [Bool.and_eq_true] at hsent
    obtain ⟨⟨⟨hon, himpl⟩, hgroup⟩, _⟩ := hsent
    split
    · exact .inr ⟨hon, himpl, hgroup, .inl ⟨‹_›, rfl⟩⟩
    · split
      · exact .inr ⟨hon, himpl, hgroup, .inr ⟨Nat.not_lt.1 ‹_›, rfl⟩⟩
      · exact .inl rfl
  · exact .inl rfl

theorem atGroupStart_iff (s : State) :
    s.atGroupStart = true ↔ (s.cur - s.a.toNat) % 16 = 0 ∧ (s.cur - s.a.toNat) / 16 < s.n.toNat / 16 := by
  simp [State.atGroupStart]

/-- A step that reads adds its hints to the record, also when the read fails (R168, R223). -/
theorem engineStep_hints_of_rem {s : State} (hp : s.phase = .running) (hr : s.rem ≠ 0) :
    s.engineStep.hints = s.stepHints ++ s.hints := by
  rcases engineStep_cases s with ⟨h, _⟩ | ⟨h, _⟩ | ⟨_, h, _⟩ | ⟨_, _, _, e⟩ | ⟨_, _, _, _, e⟩
  · simp [hp] at h
  · simp [hp] at h
  · exact absurd h hr
  · rw [e]; rfl
  · rw [e]; rfl

theorem engineStep_hints_of_no_read {s : State} (h : s.phase ≠ .running ∨ s.rem = 0) : s.engineStep.hints = s.hints := by
  by_cases hp : s.phase = .running
  · rw [engineStep_of_rem_zero hp (h.resolve_left (not_not_intro hp))]
    rfl
  · obtain ⟨_, _, _, _, _, _, hhints, _⟩ := engineStep_run_frame hp
    exact hhints

/-- Settles O38. -/
theorem hintPlacement : Obligations.HintPlacement := by
  refine ⟨fun s => engineStep_hints_of_no_read, fun s h x hx => ?_, fun s hp hr => ?_⟩
  · simpa [engineStep_frame s] using h.engineStep.hintsInside x hx
  · rw [engineStep_hints_of_rem hp hr]
    rcases stepHints_cases s with e | ⟨hon, himpl, hgroup, hplace⟩
    · exact .inl (by rw [e]; rfl)
    · obtain ⟨hstart, hfull⟩ := (atGroupStart_iff s).1 hgroup
      exact .inr ⟨hon, himpl, hstart, hfull,
        hplace.imp (And.imp_right (congrArg (· ++ s.hints))) (And.imp_right (congrArg (· ++ s.hints)))⟩

end Sys2Proof.Machine

/-! Errors and model faults (60_exceptions.md R221 to R226): the range error at acceptance, the failing read that ends a
command, and the record of stores into a running command's buffer. -/

namespace Sys2Proof.Machine

/-! ## The range error -/

/-- A latched buffer that runs past the address space starts no run (R222). -/
theorem startFold_of_over {s : State} (hover : s.cfg.space < s.a.toNat + s.n.toNat) : s.startFold = s.rangeError := by
  rcases startFold_cases s with ⟨hfit, _⟩ | ⟨_, e⟩
  · exact absurd hfit (Nat.not_le.2 hover)
  · exact e

/-- A buffer of no bytes is in range: ADDR is below 2^AW (R42, R222). -/
theorem Inv.fits_of_len_zero {s : State} (h : Inv s) (hlen : s.len = 0) :
    s.addr.toNat + s.len.toNat ≤ s.cfg.space := by
  simpa [hlen] using h.addrHardwired.le

/-- Settles O27: the check fails on the operands just latched. -/
theorem rangeErrorSetsBerrAndLatches : Obligations.RangeErrorSetsBerrAndLatches := by
  refine ⟨fun s h hlen => h.fits_of_len_zero hlen, fun s hover => ⟨?_, ?_⟩⟩
  · exact congrArg Host.Outcome.next (startFold_of_over (s := s.clearErrors.latch) hover)
  · exact congrArg Host.Outcome.next (startFold_of_over (s := s.clearErrors.latchPf) hover)

/-! ## The failing read -/

/-- The reads of a group stop with the first that fails (R223). -/
theorem readsMade_of_first_failure (s : State) {addr j k : Nat} (hj : j < k)
    (hok : ∀ i < j, s.cfg.memOk (addr + i) = true) (hfail : s.cfg.memOk (addr + j) = false) :
    s.readsMade addr k = List.range' addr (j + 1) := by
  induction k generalizing addr j with
  | zero => omega
  | succ k ih =>
    cases j with
    | zero =>
      have hfirst : s.cfg.memOk addr = false := hfail
      simp [State.readsMade, hfirst]
    | succ j =>
      have hfirst : s.cfg.memOk addr = true := hok 0 (by omega)
      have hrest : s.readsMade (addr + 1) k = List.range' (addr + 1) (j + 1) := by
        refine ih (by omega) (fun i hi => ?_) ?_
        · rw [Nat.add_right_comm]
          exact hok (i + 1) (by omega)
        · rw [Nat.add_right_comm]
          exact hfail
      rw [State.readsMade, if_pos hfirst, hrest]
      rfl

theorem readGroup_of_failure (s : State) {addr j k : Nat} (hj : j < k) (hfail : s.cfg.memOk (addr + j) = false) :
    s.readGroup addr k = none := by
  rw [← Option.not_isSome_iff_eq_none, readGroup_isSome]
  exact fun hok => Bool.false_ne_true (hfail.symm.trans (hok j hj))

/-- A running command whose step meets a failing read ends in the bus error (R223). -/
theorem engineStep_of_failure {s : State} {j : Nat} (hp : s.phase = .running) (hr : s.rem ≠ 0) (hj : j < s.stepSize)
    (hfail : s.cfg.memOk (s.cur + j) = false) : s.engineStep = s.portStep.busError := by
  have hread := readGroup_of_failure s hj hfail
  simp only [State.engineStep, hp, if_neg hr, State.datapathStep, hread]

/-- Settles O33: the step's reads stop at the failing byte, and the command ends. -/
theorem busErrorEndsTheCommand : Obligations.BusErrorEndsTheCommand := by
  intro s j hp hr hj hok hfail
  have hreads : s.portStep.busError.reads = s.reads ++ List.range' s.cur (j + 1) :=
    congrArg (s.reads ++ ·) (readsMade_of_first_failure s hj hok hfail)
  rw [engineStep_of_failure hp hr hj hfail]
  exact ⟨rfl, rfl, rfl, rfl, hreads, rfl, rfl⟩

/-! ## The model fault record -/

@[simp] theorem engineStep_modelFaults (s : State) : s.engineStep.modelFaults = s.modelFaults := by
  simp [engineStep_frame s]

@[simp] theorem hardReset_modelFaults (s : State) : s.hardReset.modelFaults = s.modelFaults := rfl

@[simp] theorem regWrite_modelFaults (s : State) (off : Nat) (v : Word) :
    (s.regWrite off v).modelFaults = s.modelFaults := by
  rcases regWrite_cases s off v with ⟨_, e⟩ | ⟨_, e⟩ | ⟨_, e⟩ | ⟨_, e⟩ | ⟨_, e⟩ | ⟨_, e⟩ | ⟨_, e⟩ | e <;> rw [e]

/-- No acceptance touches the record, of a legal word or an ILLEGAL one (R221). -/
theorem accept_next_modelFaults {w : Word} {s t : State} (h : accept w s = .next t) :
    t.modelFaults = s.modelFaults := by
  rcases accept_cases w s with ⟨i, _, e⟩ | ⟨_, _, e⟩
  · simp [exec_next_frame (e.symm.trans h)]
  · cases e.symm.trans h
    simp

/-- A store adds to the record at its end, or leaves it (R224). -/
theorem modelFaults_prefix_storeByte (s : State) (addr : Nat) (b : Byte) :
    s.modelFaults <+: (s.storeByte addr b).modelFaults := by
  rcases storeByte_cases s addr b with ⟨_, e⟩ | ⟨_, e⟩
  · rw [e]
    exact List.prefix_append _ _
  · rw [e]

/-- The record only grows, by a store (R221). -/
theorem step_modelFaults_prefix {s t : State} (h : step s = .next t) : s.modelFaults <+: t.modelFaults := by
  rcases step_effects h with
    ⟨_, _, _, ha⟩ | ⟨q, rfl⟩ | ⟨_, _, _, rfl⟩ | ⟨_, _, off, v, _, _, _, rfl⟩ | ⟨q, addr, b, _, rfl⟩ | ⟨_, _, rfl⟩
  · rw [accept_next_modelFaults ha]
  · rw [engineStep_modelFaults]
  · exact List.prefix_rfl
  · rw [regWrite_modelFaults]
  · exact modelFaults_prefix_storeByte { s with queue := q } addr b
  · rw [hardReset_modelFaults]

/-- Settles O53: a record that only grows is not empty later. -/
theorem modelFaultsAreNeverCleared : Obligations.ModelFaultsAreNeverCleared := by
  refine ⟨fun s hfault ⟨_, hnone⟩ => hfault hnone, fun s t h => ?_⟩
  have hprefix := step_modelFaults_prefix h
  exact ⟨hprefix, fun hfault ⟨_, hnone⟩ => hfault (List.prefix_nil.1 (hnone ▸ hprefix))⟩

/-! ## Stores and raced reads -/

theorem mem_overwritten {raced : List Host.Cell} {addr : Nat} {b : Byte} :
    b ∈ overwritten raced addr ↔ (addr, b) ∈ raced := by
  simp [overwritten]

/-- The port shows the memory's byte or one that a store overwrote, whichever the free value picks (R224). -/
theorem portByte_eq_or_raced (s : State) (addr : Nat) :
    s.portByte addr = s.mem.read addr ∨ (addr, s.portByte addr) ∈ s.raced := by
  rw [← mem_overwritten, ← List.mem_cons]
  unfold State.portByte
  split
  · exact List.mem_cons_self
  · rename_i old more hold
    have hpick : Config.racePick s.free addr % (s.mem.read addr :: old :: more).length <
        (s.mem.read addr :: old :: more).length := Nat.mod_lt _ (Nat.succ_pos _)
    rw [hold]
    simp only [List.getD_eq_getElem _ _ hpick]
    exact List.getElem_mem hpick

theorem memRead_eq_some {s : State} {addr : Nat} {b : Byte} (h : s.memRead addr = some b) : s.portByte addr = b := by
  unfold State.memRead at h
  split at h
  · exact Option.some.inj h
  · cases h

/-- Settles O54: a store is performed at once, also another agent's while a CMD write waits. -/
theorem storeIntoRunningBufferIsRecorded : Obligations.StoreIntoRunningBufferIsRecorded := by
  refine ⟨fun s addr b h => ?_, fun s who addr b rest hq hw => ?_⟩
  · rw [← memRead_eq_some h]
    exact portByte_eq_or_raced s addr
  have hblocked : s.waiting = none ∨ (s.busy = true ∧ (Event.store who addr b).isHostAccess = false) :=
    hw.imp_right fun ⟨hb, hwho⟩ => ⟨hb, hwho ▸ rfl⟩
  have hstep : step s = perform (.store who addr b) { s with queue := rest } := step_of_queue_cons hblocked hq
  refine ⟨fun hout => hstep.trans (if_neg (Nat.not_lt.2 hout)), fun hin => ⟨_, hstep.trans (if_pos hin), ?_⟩⟩
  refine ⟨fun hcanonical => ?_, fun hhit => if_pos hhit, fun hmiss => if_neg hmiss⟩
  rw [storeByte_mem]
  exact ⟨(memory_read_write s.mem hcanonical addr addr b).trans (if_pos rfl),
    fun x hx => (memory_read_write s.mem hcanonical addr x b).trans (if_neg hx)⟩

end Sys2Proof.Machine

/-! Reset and the end of a run (70_reset_and_hazards.md R250, R252, R261). -/

namespace Sys2Proof.Machine

/-- Settles O48: a reset is not the host's, so a write that waits for BUSY = 0 does not hold it up, and `hardReset` leaves
nothing of that write. -/
theorem resetEndsTheWork : Obligations.ResetEndsTheWork := by
  intro s rest hq hw
  have hunblocked : s.waiting = none ∨ (s.busy = true ∧ Event.isHostAccess .reset = false) :=
    hw.imp_right fun hb => ⟨hb, rfl⟩
  calc step s = perform .reset { s with queue := rest } := step_of_queue_cons hunblocked hq
    _ = .next (State.hardReset { s with queue := rest }) := rfl

/-- An idle engine does nothing (R50). -/
theorem engineStep_of_idle {s : State} (h : s.phase = .idle) : s.engineStep = s :=
  engineSteps_of_idle 1 s h

/-- Settles O57: with the schedule empty the step is the engine's, and the engine is idle. -/
theorem finishedMachineStaysPut : Obligations.FinishedMachineStaysPut := by
  intro s ⟨hqueue, hwaiting, hbusy⟩
  have hidle : s.phase = .idle := (busy_eq_false_iff s).1 hbusy
  rw [step_of_queue_nil (.inl hwaiting) hqueue, engineStep_of_idle hidle]

end Sys2Proof.Machine
